-- ==== Sys2Proof/Word.lean ====
section
/-! DEFINITION. The words of the block: command word, operands, response, and values that come one per channel. -/

namespace Sys2Proof

/-- A command word: "one word of exactly 160 bits" (30_encoding R80). -/
abbrev Word := BitVec 160

/-- One channel value: 12 unsigned bits (00_scope R7, 10_state R21). -/
abbrev Chan := BitVec 12

/-- A millisecond timestamp: `TIME_W` = 32 unsigned bits (00_scope R5, R9). -/
abbrev Time := BitVec 32

/-- A duration operand: `DUR_W` = 32 bits, two's complement (00_scope R5, 30_encoding R82). -/
abbrev Dur := BitVec 32

/-- The `sel` operand: a fader index or a logical LED index (30_encoding R81). -/
abbrev Sel := BitVec 16

/-- A response word (30_encoding R90). -/
abbrev Response := BitVec 8

/-- An accumulator value: an unsigned Q-value of `12 + F` bits, `F = 16` (10_state R23). -/
abbrev Acc := BitVec 28

/-- A slope: a signed Q-value of `13 + F` bits per millisecond (10_state R26). -/
abbrev Slope := BitVec 29

/-- The channel set (00_scope R12). -/
inductive Channel where
  | r
  | g
  | b
deriving DecidableEq, Repr

/-- One value for each of the three channels (40_fade_engine R122: three independent lanes). -/
structure Lanes (α : Type) where
  r : α
  g : α
  b : α
deriving DecidableEq, Repr, Inhabited

/-- The lane of one channel. -/
def Lanes.get {α : Type} (v : Lanes α) : Channel → α
  | .r => v.r
  | .g => v.g
  | .b => v.b

/-- The same function in each lane. -/
def Lanes.map {α β : Type} (f : α → β) (v : Lanes α) : Lanes β :=
  ⟨f v.r, f v.g, f v.b⟩

/-- The same two-place function in each lane. -/
def Lanes.map₂ {α β γ : Type} (f : α → β → γ) (v : Lanes α) (w : Lanes β) : Lanes γ :=
  ⟨f v.r w.r, f v.g w.g, f v.b w.b⟩

/-- A colour `(r, g, b)`; equality is component-wise (10_state R21). -/
abbrev Color := Lanes Chan

/-- The "blank" colour `(0, 0, 0)` (00_scope R12). -/
def black : Color := ⟨0, 0, 0⟩

end Sys2Proof
end

