-- ==== Sys2Proof/Syntax.lean ====
section
/-! DEFINITION. The commands of the block: one constructor per row of the opcode map (30_encoding R83). -/

namespace Sys2Proof

/-- A command with the operands it uses (30_encoding R83). The operand fields a command ignores (R84) are not part of it. -/
inductive Instr where
  /-- START_FADE: fader, time, target colour, fade and hold durations (40_fade_engine R111). -/
  | startFade (sel : Sel) (now : Time) (target : Color) (fade hold : Dur)
  /-- TICK: fader, time (40_fade_engine R112). -/
  | tick (sel : Sel) (now : Time)
  /-- FE_CLEAR: fader (40_fade_engine R113). -/
  | feClear (sel : Sel)
  /-- WRITE: logical LED index, colour (41_led_driver R141). -/
  | write (sel : Sel) (color : Color)
  /-- WRITE_ALL: colour (41_led_driver R142). -/
  | writeAll (color : Color)
  /-- FLUSH: time (41_led_driver R143). -/
  | flush (now : Time)
  /-- BLANK (41_led_driver R147). -/
  | blank
  /-- UNBLANK (41_led_driver R148). -/
  | unblank
  /-- INIT: time (41_led_driver R149). -/
  | init (now : Time)
deriving DecidableEq, Repr

end Sys2Proof
end

