-- ==== Sys2Proof/Decode.lean ====
section
/-! DEFINITION. The decoder, total on every 160-bit word, and the encoder, both written from the field table of format
`C160` (30_encoding R81) and the opcode map (30_encoding R83). -/

namespace Sys2Proof

/-- `opcode`, bits [159:152] (30_encoding R81). -/
def Word.opcode (w : Word) : BitVec 8 := w.extractLsb' 152 8

/-- `sel`, bits [151:136]. -/
def Word.sel (w : Word) : Sel := w.extractLsb' 136 16

/-- `now`, bits [135:104]. -/
def Word.now (w : Word) : Time := w.extractLsb' 104 32

/-- The colour operand: `r` [103:92], `g` [91:80], `b` [79:68]. -/
def Word.color (w : Word) : Color :=
  { r := w.extractLsb' 92 12, g := w.extractLsb' 80 12, b := w.extractLsb' 68 12 }

/-- `fade_duration`, bits [67:36]. -/
def Word.fade (w : Word) : Dur := w.extractLsb' 36 32

/-- `hold_duration`, bits [35:4]. -/
def Word.hold (w : Word) : Dur := w.extractLsb' 4 32

/-- `rsvd`, bits [3:0] (30_encoding R85). -/
def Word.rsvd (w : Word) : BitVec 4 := w.extractLsb' 0 4

/-- Why a word is illegal (30_encoding R86). Both give the same error, `IllegalCommand` (R88). -/
inductive Illegal where
  /-- `rsvd` is not `0000` (30_encoding R85). -/
  | reservedBitsSet
  /-- `opcode` is none of the nine of 30_encoding R83. -/
  | undefinedOpcode
deriving DecidableEq, Repr

/-- One row of the opcode map (30_encoding R83): the opcode and how the operands are assembled (R82). -/
structure OpcodeRow where
  opcode : BitVec 8
  assemble : Word → Instr

/-- The opcode map (30_encoding R83). -/
def opcodeMap : List OpcodeRow :=
  [ { opcode := 0x01, assemble := fun w => .startFade w.sel w.now w.color w.fade w.hold },
    { opcode := 0x02, assemble := fun w => .tick w.sel w.now },
    { opcode := 0x03, assemble := fun w => .feClear w.sel },
    { opcode := 0x10, assemble := fun w => .write w.sel w.color },
    { opcode := 0x11, assemble := fun w => .writeAll w.color },
    { opcode := 0x12, assemble := fun w => .flush w.now },
    { opcode := 0x13, assemble := fun _ => .blank },
    { opcode := 0x14, assemble := fun _ => .unblank },
    { opcode := 0x15, assemble := fun w => .init w.now } ]

/-- The decoder: `rsvd` first, then `opcode` (30_encoding R88 (1), (2)). The range of `sel` depends on the configuration
and is checked where the command executes (R88 (3)). -/
def decode (w : Word) : Except Illegal Instr :=
  if w.rsvd = 0 then
    match opcodeMap.find? (fun row => row.opcode == w.opcode) with
    | some row => .ok (row.assemble w)
    | none => .error .undefinedOpcode
  else .error .reservedBitsSet

/-- The opcode of a command (30_encoding R83). -/
def Instr.opcode : Instr → BitVec 8
  | .startFade _ _ _ _ _ => 0x01
  | .tick _ _ => 0x02
  | .feClear _ => 0x03
  | .write _ _ => 0x10
  | .writeAll _ => 0x11
  | .flush _ => 0x12
  | .blank => 0x13
  | .unblank => 0x14
  | .init _ => 0x15

/-- The fields of format `C160` put together, `rsvd` zero (30_encoding R81). -/
def packC160 (opcode : BitVec 8) (sel : Sel) (now : Time) (c : Color) (fade hold : Dur) : Word :=
  opcode ++ sel ++ now ++ c.r ++ c.g ++ c.b ++ fade ++ hold ++ (0 : BitVec 4)

/-- The encoder; fields a command does not use are zero, as "a careful host" sets them (30_encoding R84). -/
def encode (i : Instr) : Word :=
  match i with
  | .startFade sel now target fade hold => packC160 i.opcode sel now target fade hold
  | .tick sel now => packC160 i.opcode sel now black 0 0
  | .feClear sel => packC160 i.opcode sel 0 black 0 0
  | .write sel color => packC160 i.opcode sel 0 color 0 0
  | .writeAll color => packC160 i.opcode 0 0 color 0 0
  | .flush now => packC160 i.opcode 0 now black 0 0
  | .blank => packC160 i.opcode 0 0 black 0 0
  | .unblank => packC160 i.opcode 0 0 black 0 0
  | .init now => packC160 i.opcode 0 now black 0 0

/-- The opcode byte, the reserved nibble, and those of the fields `sel`, `now`, colour and durations that are asked for. -/
def fieldMask (sel now color durations : Bool) : Word :=
  let ones (n : Nat) (used : Bool) : BitVec n := if used then BitVec.allOnes n else 0
  packC160 (BitVec.allOnes 8) (ones 16 sel) (ones 32 now) ⟨ones 12 color, ones 12 color, ones 12 color⟩
    (ones 32 durations) (ones 32 durations) ||| 0xF

/-- The bits of a word that a command uses: the opcode, the reserved nibble, and the fields of its row of 30_encoding R83.
Every other bit is ignored (R84). -/
def Instr.usedMask : Instr → Word
  | .startFade _ _ _ _ _ => fieldMask true true true true
  | .tick _ _ => fieldMask true true false false
  | .feClear _ => fieldMask true false false false
  | .write _ _ => fieldMask true false true false
  | .writeAll _ => fieldMask false false true false
  | .flush _ => fieldMask false true false false
  | .blank => fieldMask false false false false
  | .unblank => fieldMask false false false false
  | .init _ => fieldMask false true false false

/-- The host's question: what this decoder reads from an instruction of `nbits` bits whose bits are `w`. A command is one
160-bit word (30_encoding R80); bits above `nbits` are 0. -/
def decodeTableWord (nbits w : Nat) : Option Instr :=
  match decode (BitVec.ofNat 160 (w % 2 ^ nbits)) with
  | .ok i => some i
  | .error _ => none

end Sys2Proof
end

