-- ==== Sys2Proof/Machine/Fixed.lean ====
section
/-! DEFINITION. Fixed-point notation (00_scope R13): Q-values with `F = 16` fraction bits, over the integers. -/

namespace Sys2Proof.Machine

/-- `FRAC_W`, written `F` in the spec (00_scope R5, D7). -/
def fracW : Nat := 16

/-- `Q(n) = n * 2^F`. -/
def qOf (n : Int) : Int := n * 2 ^ fracW

/-- `QMAX = Q(4095)`, the largest Q-value of a channel. -/
def qMax : Int := qOf 4095

/-- `clampQ`: 0 below 0, `QMAX` above `QMAX`, the value itself between. -/
def clampQ (w : Int) : Int :=
  if w < 0 then 0 else if qMax < w then qMax else w

/-- `tdiv(a, b)`: integer division truncating toward zero, used for `b > 0`. -/
def tdiv (a b : Int) : Int := Int.tdiv a b

/-- `int(q)`, for an accumulator the slice `q[F+11:F]` (00_scope R13, 10_state R24). -/
def intPart (q : Acc) : Chan := q.extractLsb' fracW 12

/-- An accumulator read as an integer Q-value (it is unsigned, 10_state R23). -/
def accVal (q : Acc) : Int := q.toNat

/-- An integer Q-value stored in an accumulator; only values in `[0, QMAX]` are stored. -/
def accOf (w : Int) : Acc := BitVec.ofInt 28 w

/-- The accumulator that holds a channel value exactly, fraction bits zero: `Q(v)`. -/
def accOfChan (v : Chan) : Acc := accOf (qOf v.toNat)

end Sys2Proof.Machine
end

