-- ==== Sys2Proof/Config.lean ====
section
/-! DEFINITION. The configuration of a block (00_scope R5, R6) and the model's one free value. -/

namespace Sys2Proof

/-- The constraints of 00_scope R5 and R6 on the open parameters. `TRANSLATION` is a permutation of `[0, N_LED)`. -/
def configOk (nLed p : Nat) (translation : List Nat) (minUpdateInterval minDur : Nat) : Bool :=
  decide (1 ≤ nLed ∧ nLed ≤ 65536) && decide (1 ≤ p ∧ p ≤ nLed) &&
    translation.isPerm (List.range nLed) &&
    decide (minUpdateInterval < 2 ^ 32) && decide (1 ≤ minDur ∧ minDur < 2 ^ 31)

/-- A configuration of the block, "constant for the life of a powered block" (00_scope R5). A parameter set
that breaks a constraint "is not a configuration of the block" (00_scope R6, 93 U4): it cannot be built.
The widths `TIME_W`, `DUR_W` and `FRAC_W` are fixed by the spec (D5, D6, D7). -/
structure Config where
  /-- `N_LED`: physical LEDs, and logical indices. -/
  nLed : Nat
  /-- `P`: fader banks. -/
  p : Nat
  /-- `TRANSLATION`: physical index by logical index (10_state R34). -/
  translation : List Nat
  /-- `MIN_UPDATE_INTERVAL` in milliseconds. -/
  minUpdateInterval : Nat
  /-- `MIN_DUR`, the floor of durations, in milliseconds. -/
  minDur : Nat
  /-- The constraints of 00_scope R5, R6. -/
  valid : configOk nLed p translation minUpdateInterval minDur = true
deriving DecidableEq, Repr

/-- The configuration of the spec's own test vectors (95_test_vectors, head). DESIGN CHOICE (log 5): the spec leaves the
values open; `State.reset` needs one, and no statement rests on it. -/
def Config.reference : Config :=
  { nLed := 4, p := 4, translation := [2, 0, 3, 1], minUpdateInterval := 10, minDur := 1, valid := by decide }

/-- FREE VALUE (log 13): what the `n`-th call of the host sequencer's `random_color()` returns, "a free draw of a 36-bit
value under no law" (48_host_sequencer R204, 93 U9). -/
opaque Config.randomColor : Nat → Color

end Sys2Proof
end

