-- ==== Sys2Proof/Machine/State.lean ====
section
/-! DEFINITION. The state of the block, as plain data (10_state), and the reasons a step can stop. -/

namespace Sys2Proof.Machine

/-- Cells by index, sparse: only cells that differ from the common reset value are listed, by strictly rising index
(`Store.wf` in Machine/Ops.lean). -/
abbrev Store (α : Type) := List (Nat × α)

/-- One channel buffer: 12-bit entries by physical index (10_state R33). An unlisted entry reads 0, its reset value (R44). -/
abbrev Memory := Store Chan

/-- One fader bank (10_state R22 to R30). `current` is a view of `acc` (R24), `phase` a function of it and a time (R32). -/
structure Fader where
  /-- `fe[e].acc[c]` (R23). -/
  acc : Lanes Acc
  /-- `fe[e].target` (R25). -/
  target : Color
  /-- `fe[e].slope[c]` (R26). -/
  slope : Lanes Slope
  /-- `fe[e].fade_end_time` (R29). -/
  fadeEndTime : Time
  /-- `fe[e].hold_end_time` (R29). -/
  holdEndTime : Time
  /-- `fe[e].last_tick_time` (R30). -/
  lastTickTime : Time
  /-- `fe[e].active` (R28). -/
  active : Bool
deriving DecidableEq, Repr, Inhabited

/-- A fader bank after reset: black, inactive, everything else zero (10_state R44). -/
def Fader.reset : Fader :=
  { acc := ⟨0, 0, 0⟩, target := black, slope := ⟨0, 0, 0⟩, fadeEndTime := 0, holdEndTime := 0, lastTickTime := 0, active := false }

/-- The four output lines (42_serial_output_stage R170). -/
inductive Line where
  | clk
  | data
  | lat
  | blank
deriving DecidableEq, Repr

/-- The output line registers (10_state R37). `blank` is also `blanked`: "the two are one flip-flop seen from two sides" (R36). -/
structure Lines where
  clk : Bool
  data : Bool
  lat : Bool
  blank : Bool
deriving DecidableEq, Repr

/-- An event `(line, new level)` of the pin event trace (42_serial_output_stage R170). -/
structure PinEvent where
  line : Line
  level : Bool
deriving DecidableEq, Repr

/-- What the host presents: a command word (00_scope R8), or the one event that is not a command, reset
(70_reset_and_hazards R250). -/
inductive HostEvent where
  | command (w : Word)
  | reset
deriving DecidableEq, Repr

/-- Machine faults: none. "Nothing in the block is `stuck`: every command word in every state has a next state" (93);
the errors `OutOfRange` and `IllegalCommand` are next states (60_exceptions R232). Safe: nothing is cut short. -/
inductive Fault
deriving DecidableEq, Repr

/-- Why the model gives a command no meaning. -/
inductive Refusal where
  /-- An instruction with no meaning yet; raised by `exec` alone. Safe: the run stops. -/
  | notModelled (mnemonic : String)
  /-- The `now` of START_FADE, TICK, FLUSH or INIT is smaller than an earlier one: the trace breaks the host obligation of
  00_scope R9, "is outside this spec and the model refuses it" (93 U1). Raised by `onTime`. Safe: the run stops. -/
  | timeWentBackwards
  /-- START_FADE whose `hold_end_time` would exceed the largest timestamp: "is outside this spec and the model refuses it"
  (40_fade_engine R111, 93 U2). Raised by `execStartFade`. Safe: the run stops. -/
  | endTimeBeyondRange
  /-- The host sequencer's CHANGE_PATTERN with an explicitly empty colour list (48_host_sequencer R194, 93 U5: `refuse`).
  Raised by `HostSystem.changePattern`, never by the block. Safe: the run stops. -/
  | emptyColorList
deriving DecidableEq, Repr

/-- The state (10_state R20), with the configuration it runs under, the host's side of the interface and the record of what
the observer saw (00_scope R10). -/
structure State where
  /-- The configuration; a constant, no step changes it (00_scope R5; log 1). -/
  cfg : Config
  /-- The fader bank file `fe[0 .. P-1]` (10_state R22); an unlisted bank holds its reset values. -/
  faders : Store Fader
  /-- `buf_r` (10_state R33). -/
  bufR : Memory
  /-- `buf_g` (10_state R33). -/
  bufG : Memory
  /-- `buf_b` (10_state R33). -/
  bufB : Memory
  /-- `last_update_time` (10_state R35). -/
  lastUpdateTime : Time
  /-- The line registers CLK, DATA, LAT, BLANK (10_state R37), BLANK being also `blanked` (R36). -/
  lines : Lines
  /-- `ERR`: bit 0 `oor_seen`, bit 1 `ill_seen` (10_state R38). -/
  err : BitVec 2
  /-- The chain's shift register: an `L`-bit number, `L = 36 * N_LED` (10_state R39). -/
  shreg : Nat
  /-- The chain's output latch: an `L`-bit number (10_state R39). -/
  latched : Nat
  /-- The response words so far, newest first (30_encoding R90; log 3). -/
  responses : List Response
  /-- The pin event trace so far, newest first (42_serial_output_stage R170; log 3). -/
  pinTrace : List PinEvent
  /-- What the host has yet to present, oldest first (00_scope R8; log 2). The model's own field. -/
  inbox : List HostEvent
  /-- The largest `now` accepted since reset (00_scope R9; log 9). The model's own field. -/
  timeSeen : Time
deriving DecidableEq, Repr

/-- The length `L = 36 * N_LED` of the chain in bits (42_serial_output_stage R172). -/
def State.chainBits (s : State) : Nat := 36 * s.cfg.nLed

/-- The block after power-on under a configuration: every piece of block state at its reset value (10_state R44), and the
chain holding any contents (93 U6). DESIGN CHOICE (log 14): the pin event trace starts empty, with BLANK at 1 and no event
`(BLANK, 1)`: the spec gives the line no level before power-on, so it does not say whether 70_reset_and_hazards R250 appends
one. -/
def State.powerOn (cfg : Config) (shreg latched : BitVec (36 * cfg.nLed)) : State :=
  { cfg := cfg
    faders := []
    bufR := []
    bufG := []
    bufB := []
    lastUpdateTime := 0
    lines := { clk := false, data := false, lat := false, blank := true }
    err := 0
    shreg := shreg.toNat
    latched := latched.toNat
    responses := []
    pinTrace := []
    inbox := []
    timeSeen := 0 }

/-- The machine right after reset. DESIGN CHOICE: the chain's contents are zero (log 4), the configuration is the spec's test
vectors' (log 5). -/
def State.reset : State := State.powerOn Config.reference 0 0

end Sys2Proof.Machine
end

