-- ==== Sys2Proof/Machine/Flags.lean ====
section
/-! DEFINITION. Flags: the response word's bits (30_encoding R90) and the sticky error register (10_state R38). -/

namespace Sys2Proof.Machine

/-- The two errors of the block (60_exceptions R230). -/
inductive Err where
  | outOfRange
  | illegalCommand
deriving DecidableEq, Repr

/-- The `err` field of the response (60_exceptions R230): `01` OutOfRange, `10` IllegalCommand. -/
def Err.code : Err → BitVec 2
  | .outOfRange => 0b01
  | .illegalCommand => 0b10

/-- The sticky bit of an error in `ERR` (60_exceptions R230): bit 0 OutOfRange, bit 1 IllegalCommand. -/
def Err.stickyBit : Err → BitVec 2
  | .outOfRange => 0b01
  | .illegalCommand => 0b10

/-- The response word `{0000, flushed, changed, err}` (30_encoding R90). -/
def responseWord (changed flushed : Bool) (err : BitVec 2) : Response :=
  (0 : BitVec 4) ++ BitVec.ofBool flushed ++ BitVec.ofBool changed ++ err

/-- The `changed` bit of a response word, bit 2 (30_encoding R90). -/
def responseChanged (r : Response) : Bool := r.getLsbD 2

/-- The `flushed` bit of a response word, bit 3 (30_encoding R90). -/
def responseFlushed (r : Response) : Bool := r.getLsbD 3

/-- The `err` field of a response word, bits [1:0] (30_encoding R90). -/
def responseErr (r : Response) : BitVec 2 := r.extractLsb' 0 2

end Sys2Proof.Machine
end

