-- ==== Sys2Proof/Machine/Ops.lean ====
section
/-! DEFINITION. The named operations over the state: cells, buffers, fader banks, pins and chain, responses, errors, reset. -/

namespace Sys2Proof.Machine

/-! ### Sparse cells -/

/-- The cell at `k`; `d` is what an unlisted cell reads as. -/
def Store.read {α : Type} (d : α) (m : Store α) (k : Nat) : α :=
  match m with
  | [] => d
  | (k', v) :: rest => if k' = k then v else Store.read d rest k

/-- The cells other than the one at `k`. -/
def Store.erase {α : Type} (m : Store α) (k : Nat) : Store α :=
  m.filter (fun c => c.1 != k)

/-- The cell `(k, v)` put before the first cell with a larger index. -/
def Store.insert {α : Type} (k : Nat) (v : α) : Store α → Store α
  | [] => [(k, v)]
  | c :: rest => if k < c.1 then (k, v) :: c :: rest else c :: Store.insert k v rest

/-- Writing a cell keeps the canonical form: writing what an unlisted cell reads as removes the entry. -/
def Store.write {α : Type} [DecidableEq α] (d : α) (m : Store α) (k : Nat) (v : α) : Store α :=
  if v = d then Store.erase m k else Store.insert k v (Store.erase m k)

/-- The canonical form: indices strictly rising, no entry equal to what an unlisted cell reads as. -/
def Store.wf {α : Type} [DecidableEq α] (d : α) (m : Store α) : Bool :=
  decide (m.Pairwise (fun a b => a.1 < b.1)) && m.all (fun c => decide (c.2 ≠ d))

/-- All indices are below `n`. -/
def Store.below {α : Type} (n : Nat) (m : Store α) : Bool :=
  m.all (fun c => decide (c.1 < n))

/-- The canonical form of a channel buffer; an unlisted entry reads 0 (10_state R44). -/
def Memory.wf (m : Memory) : Bool := Store.wf 0 m

/-! ### Channel buffers (20_memory R60, R61; 00_scope R14) -/

/-- The channel buffer of a channel (10_state R33). -/
def State.buffer (s : State) : Channel → Memory
  | .r => s.bufR
  | .g => s.bufG
  | .b => s.bufB

/-- `BufRead(ch, p)` (00_scope R14). -/
def State.bufRead (s : State) (ch : Channel) (p : Nat) : Chan :=
  Store.read 0 (s.buffer ch) p

/-- `BufWrite(ch, p, v)` (00_scope R14). -/
def State.bufWrite (s : State) (ch : Channel) (p : Nat) (v : Chan) : State :=
  match ch with
  | .r => { s with bufR := Store.write 0 s.bufR p v }
  | .g => { s with bufG := Store.write 0 s.bufG p v }
  | .b => { s with bufB := Store.write 0 s.bufB p v }

/-- The three buffer entries of one physical index. -/
def State.bufColor (s : State) (p : Nat) : Color :=
  { r := s.bufRead .r p, g := s.bufRead .g p, b := s.bufRead .b p }

/-- The three entries of one physical index written together (20_memory R64, 41_led_driver R141). -/
def State.bufWriteColor (s : State) (p : Nat) (c : Color) : State :=
  ((s.bufWrite .r p c.r).bufWrite .g p c.g).bufWrite .b p c.b

/-! ### Fader banks (10_state R22) -/

/-- Bank `fe[e]`. -/
def State.fader (s : State) (e : Nat) : Fader := Store.read Fader.reset s.faders e

/-- Bank `fe[e]` replaced. -/
def State.setFader (s : State) (e : Nat) (f : Fader) : State :=
  { s with faders := Store.write Fader.reset s.faders e f }

/-- The 12-bit view of a bank's accumulators (10_state R24). -/
def Fader.current (f : Fader) : Color := f.acc.map intPart

/-! ### Status ports (00_scope R10, 10_state R27) -/

/-- Port `current(e)`. -/
def State.current (s : State) (e : Nat) : Color := (s.fader e).current

/-- Port `target(e)`. -/
def State.target (s : State) (e : Nat) : Color := (s.fader e).target

/-- Port `active(e)`. -/
def State.active (s : State) (e : Nat) : Bool := (s.fader e).active

/-- Port `blanked` (10_state R36). -/
def State.blanked (s : State) : Bool := s.lines.blank

/-! ### Lines and chain (42_serial_output_stage) -/

/-- The level of a line. -/
def Lines.get (l : Lines) : Line → Bool
  | .clk => l.clk
  | .data => l.data
  | .lat => l.lat
  | .blank => l.blank

/-- The lines with one driven to a level. -/
def Lines.set (l : Lines) (x : Line) (v : Bool) : Lines :=
  match x with
  | .clk => { l with clk := v }
  | .data => { l with data := v }
  | .lat => { l with lat := v }
  | .blank => { l with blank := v }

/-- `shreg <- {shreg[L-2:0], DATA}` (42_serial_output_stage R172). -/
def shiftIn (bits : Nat) (shreg : Nat) (data : Bool) : Nat :=
  (2 * shreg + data.toNat) % 2 ^ bits

/-- What the chain does at a line event: a rising CLK shifts (R172), a rising LAT latches (R174), nothing else moves it. -/
def State.chainEdge (s : State) (x : Line) (v : Bool) : State :=
  match x, v with
  | .clk, true => { s with shreg := shiftIn s.chainBits s.shreg s.lines.data }
  | .lat, true => { s with latched := s.shreg }
  | .clk, false => s
  | .lat, false => s
  | .data, _ => s
  | .blank, _ => s

/-- `pin(X) <- v`: if the level differs, the line takes it, the event is appended to the trace and the chain sees the edge
(00_scope R14, 42_serial_output_stage R170). -/
def State.pin (s : State) (x : Line) (v : Bool) : State :=
  if s.lines.get x = v then s
  else State.chainEdge { s with lines := s.lines.set x v, pinTrace := ⟨x, v⟩ :: s.pinTrace } x v

/-- `SHIFT_BIT(v)` (42_serial_output_stage R171). -/
def State.shiftBit (s : State) (v : Bool) : State :=
  ((s.pin .data v).pin .clk true).pin .clk false

/-- `LATCH_PULSE()` (42_serial_output_stage R173). -/
def State.latchPulse (s : State) : State :=
  (s.pin .lat true).pin .lat false

/-- The bits of a channel value, most significant first (41_led_driver R145: `for k in 11 downto 0`). -/
def msbFirst (v : Chan) : List Bool :=
  (List.range 12).map (fun k => v.getLsbD (11 - k))

/-- One channel of one LED shifted out. -/
def State.shiftEntry (s : State) (v : Chan) : State :=
  (msbFirst v).foldl State.shiftBit s

/-- One LED shifted out: blue, then red, then green (41_led_driver R145, R146). -/
def State.shiftLed (s : State) (p : Nat) : State :=
  [Channel.b, Channel.r, Channel.g].foldl (fun t ch => t.shiftEntry (t.bufRead ch p)) s

/-- `SHIFT_FRAME()`: every physical LED, ascending (41_led_driver R145). -/
def State.shiftFrame (s : State) : State :=
  (List.range s.cfg.nLed).foldl State.shiftLed s

/-- `latched_color(p)`: with `W = latched[L-1-36p : L-36-36p]`, `b = W[35:24]`, `r = W[23:12]`, `g = W[11:0]`
(42_serial_output_stage R176). -/
def State.latchedColor (s : State) (p : Nat) : Color :=
  let w := BitVec.ofNat 36 (s.latched >>> (s.chainBits - 36 - 36 * p))
  { r := w.extractLsb' 12 12, g := w.extractLsb' 0 12, b := w.extractLsb' 24 12 }

/-- `led_out[p]` (42_serial_output_stage R175). -/
def State.ledOut (s : State) (p : Nat) : Color :=
  if s.lines.blank then black else s.latchedColor p

/-- Bit `j` of the frame on the wire: `BufRead(ch, p)[11 - k]` with `p = floor(j / 36)`,
`ch = (b, r, g)[floor((j mod 36) / 12)]`, `k = j mod 12` (20_memory R62). -/
def State.frameBit (s : State) (j : Nat) : Bool :=
  let ch : Channel := if j % 36 < 12 then .b else if j % 36 < 24 then .r else .g
  (s.bufRead ch (j / 36)).getLsbD (11 - j % 12)

/-! ### Responses, errors, time, reset -/

/-- `respond(changed = c, flushed = f)`: the command completes without error (00_scope R14, 30_encoding R90). -/
def State.respond (s : State) (changed flushed : Bool) : State :=
  { s with responses := responseWord changed flushed 0 :: s.responses }

/-- `raise E`, the block's one exception entry: nothing changes but the sticky bit and the response (60_exceptions R232). -/
def State.raise (s : State) (e : Err) : State :=
  { s with err := s.err ||| e.stickyBit, responses := responseWord false false e.code :: s.responses }

/-- Runs the rest of a computation on a next state; a stop stays a stop. -/
def andThen {σ τ : Type} (o : Host.Outcome σ Fault Refusal) (k : σ → Host.Outcome τ Fault Refusal) :
    Host.Outcome τ Fault Refusal :=
  match o with
  | .next s => k s
  | .fault r => .fault r
  | .refused r => .refused r

/-- The range check of the fader commands, `sel < P` (30_encoding R88 (3), 60_exceptions R233). -/
def onFader (sel : Sel) (s : State) (k : Nat → Host.Outcome State Fault Refusal) : Host.Outcome State Fault Refusal :=
  if sel.toNat < s.cfg.p then k sel.toNat else .next (s.raise .outOfRange)

/-- The range check of WRITE, `sel < N_LED` (30_encoding R88 (3), 60_exceptions R233). -/
def onLed (sel : Sel) (s : State) (k : Nat → Host.Outcome State Fault Refusal) : Host.Outcome State Fault Refusal :=
  if sel.toNat < s.cfg.nLed then k sel.toNat else .next (s.raise .outOfRange)

/-- The host obligation of monotonic time (00_scope R9): a time-carrying command with an earlier `now` is refused (93 U1), an
accepted one is remembered. -/
def onTime (now : Time) (s : State) (k : State → Host.Outcome State Fault Refusal) : Host.Outcome State Fault Refusal :=
  if now < s.timeSeen then .refused .timeWentBackwards else k { s with timeSeen := now }

/-- The reset event (70_reset_and_hazards R250, R251): block state to its reset values; the chain, the configuration and the
records of what was seen stay; `(BLANK, 1)` is appended if the line was 0, and nothing else. -/
def State.applyReset (s : State) : State :=
  { s with
    faders := []
    bufR := []
    bufG := []
    bufB := []
    lastUpdateTime := 0
    lines := { clk := false, data := false, lat := false, blank := true }
    err := 0
    pinTrace := if s.lines.blank then s.pinTrace else ⟨.blank, true⟩ :: s.pinTrace
    timeSeen := 0 }

end Sys2Proof.Machine
end

