-- ==== Sys2Proof/Machine/Operands.lean ====
section
/-! DEFINITION. Operand forms: floored durations, window ends, effective addresses. -/

namespace Sys2Proof.Machine

/-- The value of a duration operand: `signed_32(field)` (30_encoding R82). -/
def durVal (d : Dur) : Int := d.toInt

/-- `max(d, MIN_DUR)`, compared as signed integers (40_fade_engine R114): a natural number, at least `MIN_DUR`. -/
def flooredDur (c : Config) (d : Dur) : Nat := (max (durVal d) c.minDur).toNat

/-- `now + D + MIN_DUR`, in unbounded integers (40_fade_engine R111). -/
def fadeEnd (c : Config) (now : Time) (fade : Dur) : Nat :=
  now.toNat + flooredDur c fade + c.minDur

/-- `now + D + MIN_DUR + H + MIN_DUR`, in unbounded integers (40_fade_engine R111). -/
def holdEnd (c : Config) (now : Time) (fade hold : Dur) : Nat :=
  fadeEnd c now fade + flooredDur c hold + c.minDur

/-- The effective address of a buffer access: `TRANSLATION[li]` (20_memory R61). -/
def physIndex (c : Config) (li : Nat) : Nat := c.translation.getD li 0

end Sys2Proof.Machine
end

