-- ==== Sys2Proof/Machine/FadeEngine.lean ====
section
/-! DEFINITION. The Fade Engine commands START_FADE, TICK, FE_CLEAR (40_fade_engine). -/

namespace Sys2Proof.Machine

/-- The phases of a fader at a time (10_state R32). -/
inductive Phase where
  | idle
  | fading
  | holding
  | expired
deriving DecidableEq, Repr

/-- `phase(e, t)` (10_state R32). -/
def Fader.phase (f : Fader) (t : Time) : Phase :=
  if f.active then
    if t < f.fadeEndTime then .fading
    else if t < f.holdEndTime then .holding
    else .expired
  else .idle

/-- `slope[c] = tdiv(Q(T[c]) - acc[c], D)` (40_fade_engine R115). -/
def slopeFor (d : Nat) (target : Chan) (acc : Acc) : Slope :=
  BitVec.ofInt 29 (tdiv (qOf target.toNat - accVal acc) d)

/-- What START_FADE leaves in its bank (40_fade_engine R111); `acc` is not written. -/
def Fader.start (f : Fader) (c : Config) (now : Time) (target : Color) (fade hold : Dur) : Fader :=
  { f with
    slope := Lanes.map₂ (slopeFor (flooredDur c fade)) target f.acc
    target := target
    fadeEndTime := BitVec.ofNat 32 (fadeEnd c now fade)
    holdEndTime := BitVec.ofNat 32 (holdEnd c now fade hold)
    lastTickTime := now
    active := true }

/-- `now - last_tick_time`, in unbounded integers (40_fade_engine R112). -/
def Fader.elapsed (f : Fader) (now : Time) : Int := (now.toNat : Int) - f.lastTickTime.toNat

/-- `wide[c] = acc[c] + slope[c] * dt`, exact (40_fade_engine R116). -/
def wide (dt : Int) (acc : Acc) (slope : Slope) : Int := accVal acc + slope.toInt * dt

/-- The final clamp of TICK (40_fade_engine R112). -/
def Fader.clampAcc (f : Fader) : Fader :=
  { f with acc := f.acc.map (fun q => accOf (clampQ (accVal q))) }

/-- The Fading branch: advance and clamp each lane, remember the time (40_fade_engine R112, R116, R117). -/
def Fader.advance (f : Fader) (now : Time) : Fader :=
  { f with
    acc := Lanes.map₂ (fun q m => accOf (clampQ (wide (f.elapsed now) q m))) f.acc f.slope
    lastTickTime := now }

/-- The Holding branch: snap to the target, fraction bits zero (40_fade_engine R112). -/
def Fader.snap (f : Fader) : Fader := { f with acc := f.target.map accOfChan }

/-- The Expired branch: the fader goes idle, `acc` untouched (40_fade_engine R112). -/
def Fader.retire (f : Fader) : Fader := { f with active := false }

/-- TICK on one bank: the new bank and the `changed` result (40_fade_engine R112, R118). -/
def Fader.tick (f : Fader) (now : Time) : Fader × Bool :=
  match f.phase now with
  | .idle => (f.clampAcc, false)
  | .fading => ((f.advance now).clampAcc, decide ((f.advance now).current ≠ f.current))
  | .holding => (f.snap.clampAcc, false)
  | .expired => (f.retire.clampAcc, false)

/-- START_FADE (40_fade_engine R111). An end time beyond the timestamp range is refused (R111, 93 U2). -/
def execStartFade (sel : Sel) (now : Time) (target : Color) (fade hold : Dur) (s : State) :
    Host.Outcome State Fault Refusal :=
  onFader sel s fun e =>
    onTime now s fun s =>
      if holdEnd s.cfg now fade hold ≤ 2 ^ 32 - 1 then
        .next ((s.setFader e ((s.fader e).start s.cfg now target fade hold)).respond false false)
      else .refused .endTimeBeyondRange

/-- TICK (40_fade_engine R112). -/
def execTick (sel : Sel) (now : Time) (s : State) : Host.Outcome State Fault Refusal :=
  onFader sel s fun e =>
    onTime now s fun s =>
      .next ((s.setFader e ((s.fader e).tick now).1).respond ((s.fader e).tick now).2 false)

/-- FE_CLEAR (40_fade_engine R113). -/
def execFeClear (sel : Sel) (s : State) : Host.Outcome State Fault Refusal :=
  onFader sel s fun e => .next ((s.setFader e Fader.reset).respond false false)

end Sys2Proof.Machine
end

