-- ==== Sys2Proof/Machine/LedDriver.lean ====
section
/-! DEFINITION. The LED Driver commands WRITE, WRITE_ALL, FLUSH, BLANK, UNBLANK, INIT (41_led_driver). -/

namespace Sys2Proof.Machine

/-- WRITE (41_led_driver R141). -/
def execWrite (sel : Sel) (color : Color) (s : State) : Host.Outcome State Fault Refusal :=
  onLed sel s fun li => .next ((s.bufWriteColor (physIndex s.cfg li) color).respond false false)

/-- Every logical index written, through the translation table (41_led_driver R142). -/
def State.writeAllLeds (s : State) (color : Color) : State :=
  (List.range s.cfg.nLed).foldl (fun t li => t.bufWriteColor (physIndex s.cfg li) color) s

/-- WRITE_ALL (41_led_driver R142). -/
def execWriteAll (color : Color) (s : State) : Host.Outcome State Fault Refusal :=
  .next ((s.writeAllLeds color).respond false false)

/-- The throttle test `now >= last_update_time + MIN_UPDATE_INTERVAL`, in unbounded integers (41_led_driver R144). -/
def State.flushDue (s : State) (now : Time) : Bool :=
  decide (s.lastUpdateTime.toNat + s.cfg.minUpdateInterval ≤ now.toNat)

/-- A frame sent and latched, and its time recorded (41_led_driver R143, R149). -/
def State.sendFrame (s : State) (now : Time) : State :=
  { s.shiftFrame.latchPulse with lastUpdateTime := now }

/-- FLUSH (41_led_driver R143). -/
def execFlush (now : Time) (s : State) : Host.Outcome State Fault Refusal :=
  onTime now s fun s =>
    if s.flushDue now then .next ((s.sendFrame now).respond false true) else .next (s.respond false false)

/-- BLANK (41_led_driver R147). -/
def execBlank (s : State) : Host.Outcome State Fault Refusal :=
  .next ((s.pin .blank true).respond false false)

/-- UNBLANK (41_led_driver R148). -/
def execUnblank (s : State) : Host.Outcome State Fault Refusal :=
  .next ((s.pin .blank false).respond false false)

/-- "configure lines", then "blank" (41_led_driver R149). -/
def State.configureAndBlank (s : State) : State :=
  (((s.pin .clk false).pin .data false).pin .lat false).pin .blank true

/-- INIT (41_led_driver R149). -/
def execInit (now : Time) (s : State) : Host.Outcome State Fault Refusal :=
  onTime now s fun s =>
    .next (((s.configureAndBlank.sendFrame now).pin .blank false).respond false true)

end Sys2Proof.Machine
end

