-- ==== Sys2Proof/Machine/Dispatch.lean ====
section
/-! DEFINITION. One arm per command: the meaning it has. -/

namespace Sys2Proof.Machine

def exec (i : Instr) (s : State) : Host.Outcome State Fault Refusal :=
  match i with
  | .startFade sel now target fade hold => Sys2Proof.Machine.execStartFade sel now target fade hold s
  | .tick sel now => Sys2Proof.Machine.execTick sel now s
  | .feClear sel => Sys2Proof.Machine.execFeClear sel s
  | .write sel color => Sys2Proof.Machine.execWrite sel color s
  | .writeAll color => Sys2Proof.Machine.execWriteAll color s
  | .flush now => Sys2Proof.Machine.execFlush now s
  | .blank => Sys2Proof.Machine.execBlank s
  | .unblank => Sys2Proof.Machine.execUnblank s
  | .init now => Sys2Proof.Machine.execInit now s

end Sys2Proof.Machine
end

