-- ==== Sys2Proof/Machine/Executor.lean ====
section
/-! DEFINITION. The command executor (00_scope R2, R8): what one presented host event does. -/

namespace Sys2Proof.Machine

/-- One command word, decoded and run to completion; an illegal word raises `IllegalCommand` (30_encoding R86, R88). -/
def runWord (w : Word) (s : State) : Host.Outcome State Fault Refusal :=
  match decode w with
  | .ok i => exec i s
  | .error _ => .next (s.raise .illegalCommand)

/-- One host event: a command, or the reset "the host may apply between any two commands" (70_reset_and_hazards R250). -/
def runEvent (ev : HostEvent) (s : State) : Host.Outcome State Fault Refusal :=
  match ev with
  | .command w => runWord w s
  | .reset => .next s.applyReset

/-- The next event the host presents, taken; with none presented the block waits (60_exceptions R242,
70_reset_and_hazards R252; log 2). -/
def takeEvent (s : State) : Host.Outcome State Fault Refusal :=
  match s.inbox with
  | [] => .next s
  | ev :: rest => runEvent ev { s with inbox := rest }

/-- The state with a command word presented next, before anything else the host has. -/
def State.present (s : State) (w : Word) : State :=
  { s with inbox := .command w :: s.inbox }

end Sys2Proof.Machine
end

