-- ==== Sys2Proof/Machine/Step.lean ====
section
/-! DEFINITION. One step: one host event, or waiting for one. -/

namespace Sys2Proof.Machine

/-- One step of the block (00_scope R8; log 2). -/
def step (s : State) : Host.Outcome State Fault Refusal := takeEvent s

/-- The word `w` of `nbits` bits placed where the next step takes its command from. -/
def State.withFetchWord (s : State) (nbits w : Nat) : State :=
  s.present (BitVec.ofNat 160 (w % 2 ^ nbits))

end Sys2Proof.Machine
end

