-- ==== Sys2Proof/Machine/Sequencer.lean ====
section
/-! DEFINITION. The host sequencer (48_host_sequencer): the document's Animation Engine, host software whose operations expand
into command words presented to the block's `step`. It is no part of the block (00_scope R4; log 12). -/

namespace Sys2Proof.Machine

/-- The patterns (48_host_sequencer R191). -/
inductive Pattern where
  | fader
  | chaser
  | random
  | randomFader
  | stop
deriving DecidableEq, Repr

/-- The sequencer's parameters (48_host_sequencer R191, R192, D33); all open but `postIncrement`, which the spec takes as true. -/
structure SeqParams where
  /-- `MAX_COLORS >= 1`. -/
  maxColors : Nat
  /-- `DEFAULT_PATTERN`. -/
  defaultPattern : Pattern
  /-- `DEFAULT_FADE`. -/
  defaultFade : Dur
  /-- `DEFAULT_HOLD`. -/
  defaultHold : Dur
  /-- `SEQ_POST_INCREMENT`: the cursor is used, then advanced. -/
  postIncrement : Bool
  /-- `MAX_COLORS >= 1` (R191). -/
  valid : decide (1 ≤ maxColors) = true
deriving DecidableEq, Repr

/-- The sequencer's state (48_host_sequencer R191); `draws` counts the calls of `random_color()` (the model's own, log 13). -/
structure Sequencer where
  params : SeqParams
  pattern : Pattern
  fadeDuration : Dur
  holdDuration : Dur
  colors : List Color
  colorCount : Nat
  position : Nat
  changed : Bool
  isFading : Bool
  draws : Nat
deriving DecidableEq, Repr

/-- The host's sequencer and the block it drives. -/
structure HostSystem where
  seq : Sequencer
  block : State
deriving DecidableEq, Repr

/-- What an operation of the sequencer answers. -/
abbrev SeqOutcome := Host.Outcome HostSystem Fault Refusal

/-- One command word presented to the block and run (48_host_sequencer, head). -/
def HostSystem.issue (i : Instr) (h : HostSystem) : SeqOutcome :=
  andThen (step (h.block.present (encode i))) fun s => .next { h with block := s }

/-- The `changed` bit of the latest response. -/
def HostSystem.respChanged (h : HostSystem) : Bool :=
  match h.block.responses with
  | [] => false
  | r :: _ => responseChanged r

/-- `for x in xs: f x`, stopping where a command stops. -/
def forEach {α : Type} (xs : List α) (f : α → HostSystem → SeqOutcome) (h : HostSystem) : SeqOutcome :=
  match xs with
  | [] => .next h
  | x :: rest => andThen (f x h) (forEach rest f)

/-- A pure step of the sequencer. -/
def HostSystem.update (h : HostSystem) (f : Sequencer → Sequencer) : HostSystem := { h with seq := f h.seq }

/-- `colors[i]`; a slot that does not exist is black (48_host_sequencer R209, 93 U8). -/
def Sequencer.colorAt (q : Sequencer) (i : Nat) : Color := q.colors.getD i black

/-- The cursor value an init step uses, of modulus `m`: as it stands, or already advanced (D33, `SEQ_POST_INCREMENT`). -/
def Sequencer.cursorUsed (q : Sequencer) (m : Nat) : Nat :=
  if q.params.postIncrement then q.position else (q.position + 1) % m

/-- The cursor after an init step: advanced by one, modulo `m`. -/
def Sequencer.cursorNext (q : Sequencer) (m : Nat) : Nat := (q.position + 1) % m

/-- A fader index as a `sel` operand. -/
def selOf (e : Nat) : Sel := BitVec.ofNat 16 e

/-- `active(0) or ... or active(P-1)`. -/
def HostSystem.anyActive (h : HostSystem) : Bool :=
  (List.range h.block.cfg.p).any h.block.active

/-- START_FADE of one engine with the sequencer's durations. -/
def HostSystem.startEngine (e : Nat) (c : Color) (t : Time) (h : HostSystem) : SeqOutcome :=
  h.issue (.startFade (selOf e) t c h.seq.fadeDuration h.seq.holdDuration)

/-- TICK of one engine; its `changed` is collected. -/
def HostSystem.tickEngine (t : Time) (e : Nat) (h : HostSystem) : SeqOutcome :=
  andThen (h.issue (.tick (selOf e) t)) fun h =>
    .next (h.update fun q => { q with changed := q.changed || h.respChanged })

/-- WRITE of one logical LED with an engine's current colour. -/
def HostSystem.showEngine (li e : Nat) (h : HostSystem) : SeqOutcome :=
  h.issue (.write (selOf li) (h.block.current e))

/-- FADER init (48_host_sequencer R195). -/
def HostSystem.faderInit (t : Time) (h : HostSystem) : SeqOutcome :=
  andThen (h.startEngine 0 (h.seq.colorAt (h.seq.cursorUsed h.seq.colorCount)) t) fun h =>
    .next (h.update fun q =>
      { q with position := q.cursorNext q.colorCount, isFading := h.block.active 0 })

/-- FADER control (48_host_sequencer R196), and RANDOM_FADER control (R202). -/
def HostSystem.faderControl (t : Time) (h : HostSystem) : SeqOutcome :=
  andThen (h.tickEngine t 0) fun h =>
    andThen (h.issue (.writeAll (h.block.current 0))) fun h =>
      .next (h.update fun q => { q with isFading := h.block.active 0 })

/-- The modulus of CHASER's cursor: `color_count`, or `P` when there are fewer colours than engines (48_host_sequencer R197). -/
def chaserModulus (colorCount p : Nat) : Nat := if colorCount < p then p else colorCount

/-- `(position - i) mod m`, a result in `[0, m)` (48_host_sequencer R197). -/
def cursorMinus (position i m : Nat) : Nat := (((position : Int) - i) % (m : Int)).toNat

/-- The `i`-th engine and target of CHASER init at a cursor (48_host_sequencer R197, the three cases; the inclusive test
`i <= color_count` is R209's). -/
def Sequencer.chaserAssign (q : Sequencer) (p position i : Nat) : Nat × Color :=
  if q.colorCount = p then (cursorMinus position i p, q.colorAt i)
  else if p < q.colorCount then (i, q.colorAt (cursorMinus position i q.colorCount))
  else (cursorMinus position i p, if i ≤ q.colorCount then q.colorAt i else black)

/-- CHASER init (48_host_sequencer R197). -/
def HostSystem.chaserInit (t : Time) (h : HostSystem) : SeqOutcome :=
  let p := h.block.cfg.p
  let m := chaserModulus h.seq.colorCount p
  let h := h.update fun q => { q with position := q.position % m }
  let q := h.seq
  andThen
    (forEach (List.range p)
      (fun i h => h.startEngine (q.chaserAssign p (q.cursorUsed m) i).1 (q.chaserAssign p (q.cursorUsed m) i).2 t) h)
    fun h => .next (h.update fun q => { q with position := q.cursorNext m, isFading := h.anyActive })

/-- CHASER control (48_host_sequencer R198). -/
def HostSystem.chaserControl (t : Time) (h : HostSystem) : SeqOutcome :=
  andThen (forEach (List.range h.block.cfg.p) (HostSystem.tickEngine t) h) fun h =>
    andThen (forEach (List.range h.block.cfg.nLed) (fun i h => h.showEngine i (i % h.block.cfg.p)) h) fun h =>
      .next (h.update fun q => { q with isFading := h.anyActive })

/-- `random_color()`: the next free draw (48_host_sequencer R204). -/
def Sequencer.draw (q : Sequencer) : Color × Sequencer :=
  (Config.randomColor q.draws, { q with draws := q.draws + 1 })

/-- START_FADE of one engine toward a fresh random colour. -/
def HostSystem.startRandom (t : Time) (e : Nat) (h : HostSystem) : SeqOutcome :=
  HostSystem.startEngine e h.seq.draw.1 t { h with seq := h.seq.draw.2 }

/-- RANDOM init (48_host_sequencer R199). -/
def HostSystem.randomInit (t : Time) (h : HostSystem) : SeqOutcome :=
  andThen (forEach (List.range h.block.cfg.p) (HostSystem.startRandom t) h) fun h =>
    .next (h.update fun q => { q with isFading := true })

/-- RANDOM control (48_host_sequencer R200). -/
def HostSystem.randomControl (t : Time) (h : HostSystem) : SeqOutcome :=
  andThen (forEach (List.range h.block.cfg.p) (HostSystem.tickEngine t) h) fun h =>
    andThen
      (forEach (List.range h.block.cfg.nLed)
        (fun i h => andThen (h.showEngine i h.seq.position) fun h =>
          .next (h.update fun q => { q with position := (q.position + 1) % h.block.cfg.p })) h)
      fun h => .next (h.update fun q => { q with isFading := h.anyActive })

/-- RANDOM_FADER init (48_host_sequencer R201). -/
def HostSystem.randomFaderInit (t : Time) (h : HostSystem) : SeqOutcome :=
  andThen (HostSystem.startRandom t 0 h) fun h =>
    .next (h.update fun q => { q with isFading := h.block.active 0 })

/-- STOP: black to every LED; the fade pool is left alone (48_host_sequencer R203). -/
def HostSystem.stopStep (h : HostSystem) : SeqOutcome := h.issue (.writeAll black)

/-- The dispatch on the pattern: control while fading, else init (48_host_sequencer R193 step 1, 2). -/
def HostSystem.patternStep (t : Time) (h : HostSystem) : SeqOutcome :=
  match h.seq.pattern with
  | .fader => if h.seq.isFading then h.faderControl t else h.faderInit t
  | .chaser => if h.seq.isFading then h.chaserControl t else h.chaserInit t
  | .random => if h.seq.isFading then h.randomControl t else h.randomInit t
  | .randomFader => if h.seq.isFading then h.faderControl t else h.randomFaderInit t
  | .stop => h.stopStep

/-- `ANIM_TICK now=<t>` (48_host_sequencer R193). -/
def HostSystem.animTick (t : Time) (h : HostSystem) : SeqOutcome :=
  andThen (h.patternStep t) fun h =>
    if h.seq.changed then
      andThen (h.issue (.flush t)) fun h => .next (h.update fun q => { q with changed := false })
    else .next h

/-- `n` colours from a list, black after its end (48_host_sequencer R194). -/
def padColors (n : Nat) (cs : List Color) : List Color :=
  (List.range n).map (fun i => cs.getD i black)

/-- The sequencer's own part of CHANGE_PATTERN (48_host_sequencer R194). -/
def Sequencer.reconfigure (q : Sequencer) (pattern : Pattern) (fade hold : Dur) (colors : Option (List Color)) : Sequencer :=
  { q with
    pattern := pattern
    fadeDuration := fade
    holdDuration := hold
    position := 0
    isFading := false
    colors := padColors q.params.maxColors (colors.getD [])
    colorCount := match colors with
      | none => q.params.maxColors
      | some cs => min cs.length q.params.maxColors
    changed := true }

/-- `CHANGE_PATTERN <type>, fade=<d>, hold=<h> [, colors=[...]]` (48_host_sequencer R194); an explicitly empty list is refused
(93 U5). -/
def HostSystem.changePattern (pattern : Pattern) (fade hold : Dur) (colors : Option (List Color)) (h : HostSystem) : SeqOutcome :=
  if colors = some [] then .refused .emptyColorList
  else
    andThen (forEach (List.range h.block.cfg.p) (fun e h => h.issue (.feClear (selOf e))) h) fun h =>
      .next (h.update fun q => q.reconfigure pattern fade hold colors)

/-- The sequencer before its construction: nothing of it is read before CHANGE_PATTERN sets it. -/
def Sequencer.blankSlate (params : SeqParams) : Sequencer :=
  { params := params, pattern := params.defaultPattern, fadeDuration := 0, holdDuration := 0, colors := [], colorCount := 0,
    position := 0, changed := false, isFading := false, draws := 0 }

/-- Construction over a block: CHANGE_PATTERN with the defaults, the colour list omitted (48_host_sequencer R192). -/
def HostSystem.construct (params : SeqParams) (block : State) : SeqOutcome :=
  HostSystem.changePattern params.defaultPattern params.defaultFade params.defaultHold none
    { seq := Sequencer.blankSlate params, block := block }

/-- `INITIALIZE now=<t>` (48_host_sequencer R206). -/
def HostSystem.initialise (t : Time) (h : HostSystem) : SeqOutcome := h.issue (.init t)

/-- `SET_LED led<li>, C` (48_host_sequencer R206). -/
def HostSystem.setLed (li : Sel) (c : Color) (h : HostSystem) : SeqOutcome := h.issue (.write li c)

/-- `SET_ALL C` (48_host_sequencer R206). -/
def HostSystem.setAll (c : Color) (h : HostSystem) : SeqOutcome := h.issue (.writeAll c)

end Sys2Proof.Machine
end

