-- ==== Sys2Proof/WellFormed.lean ====
section
/-! DEFINITION. Which commands are well formed for a configuration: the check by value of 30_encoding R88 (3).
A command that is not well formed is still a command; it raises `OutOfRange` (60_exceptions R233). -/

namespace Sys2Proof

/-- `sel < P` for the fader commands, `sel < N_LED` for WRITE; the others do not use `sel` (30_encoding R88, 60_exceptions R233).
Every other operand is exactly as wide as its field, so nothing else can be ill formed. -/
def Instr.wellFormed (c : Config) : Instr → Bool
  | .startFade sel _ _ _ _ => decide (sel.toNat < c.p)
  | .tick sel _ => decide (sel.toNat < c.p)
  | .feClear sel => decide (sel.toNat < c.p)
  | .write sel _ => decide (sel.toNat < c.nLed)
  | .writeAll _ => true
  | .flush _ => true
  | .blank => true
  | .unblank => true
  | .init _ => true

/-- The `now` operand of a time-carrying command (00_scope R9: START_FADE, TICK, FLUSH, INIT). -/
def Instr.now? : Instr → Option Time
  | .startFade _ now _ _ _ => some now
  | .tick _ now => some now
  | .feClear _ => none
  | .write _ _ => none
  | .writeAll _ => none
  | .flush now => some now
  | .blank => none
  | .unblank => none
  | .init now => some now

/-- The fader a command selects, if it is a fader command (10_state R22). -/
def Instr.fader? : Instr → Option Nat
  | .startFade sel _ _ _ _ => some sel.toNat
  | .tick sel _ => some sel.toNat
  | .feClear sel => some sel.toNat
  | .write _ _ => none
  | .writeAll _ => none
  | .flush _ => none
  | .blank => none
  | .unblank => none
  | .init _ => none

end Sys2Proof
end

