-- ==== Sys2Proof/Safety.lean ====
section
/-! DEFINITION. The terms claims use: the invariant of reachable states, the host's obligations, what a command leaves alone. -/

namespace Sys2Proof.Machine

/-! ### Invariants -/

/-- The time fields of a bank: never started since reset or FE_CLEAR, or ordered as 10_state R31 (c) says, `n` being the largest
`now` so far. -/
def Fader.TimesOrdered (f : Fader) (n : Time) : Prop :=
  (f.active = false ∧ f.fadeEndTime = 0 ∧ f.holdEndTime = 0 ∧ f.lastTickTime = 0) ∨
    (f.lastTickTime < f.fadeEndTime ∧ f.fadeEndTime < f.holdEndTime ∧ f.lastTickTime ≤ n)

/-- A bank's invariant: 10_state R31 (a), (b), (c), and the reach of a slope over the rest of its Fading window, which is what
bounds `wide` in 40_fade_engine R116. -/
structure Fader.Inv (f : Fader) (n : Time) : Prop where
  accLe : ∀ c, accVal (f.acc.get c) ≤ qMax
  slopeLe : ∀ c, |(f.slope.get c).toInt| ≤ qMax
  times : f.TimesOrdered n
  reach : ∀ c, |(f.slope.get c).toInt| * ((f.fadeEndTime.toNat : Int) - f.lastTickTime.toNat) ≤ 2 * qMax

/-- The invariant of the machine at every command boundary. -/
structure State.Inv (s : State) : Prop where
  /-- The bank file is in canonical form, and only banks in `[0, P)` are listed (10_state R22). -/
  fadersWf : Store.wf Fader.reset s.faders = true
  fadersBelow : Store.below s.cfg.p s.faders = true
  /-- The buffers are in canonical form, and only entries in `[0, N_LED)` are listed (10_state R33). -/
  bufferWf : ∀ ch, Memory.wf (s.buffer ch) = true
  bufferBelow : ∀ ch, Store.below s.cfg.nLed (s.buffer ch) = true
  /-- Every bank meets 10_state R31. -/
  fader : ∀ e, (s.fader e).Inv s.timeSeen
  /-- "Between commands `CLK = 0` and `LAT = 0` always" (42_serial_output_stage R177). -/
  clkLow : s.lines.clk = false
  latLow : s.lines.lat = false
  /-- The chain's registers have `L` bits (10_state R39). -/
  shregBits : s.shreg < 2 ^ s.chainBits
  latchedBits : s.latched < 2 ^ s.chainBits
  /-- `last_update_time` is an accepted `now` (10_state R35). -/
  updateSeen : s.lastUpdateTime ≤ s.timeSeen

/-- `x` lies between 0 and `y`, on either side of 0. -/
def BetweenZeroAnd (x y : Int) : Prop := (0 ≤ x ∧ x ≤ y) ∨ (y ≤ x ∧ x ≤ 0)

/-- No lane passes its target before its nominal end (40_fade_engine R120): while a bank is Fading, what the slope still adds up
to one millisecond before `fade_end_time` does not pass the target. `n` is the largest `now` so far. -/
def Fader.OnCourse (f : Fader) (n : Time) : Prop :=
  f.active = true → n < f.fadeEndTime →
    ∀ c, BetweenZeroAnd ((f.slope.get c).toInt * ((f.fadeEndTime.toNat : Int) - 1 - f.lastTickTime.toNat))
      (qOf (f.target.get c).toNat - accVal (f.acc.get c))

/-- Every bank is on course. -/
def State.OnCourse (s : State) : Prop := ∀ e, (s.fader e).OnCourse s.timeSeen

/-! ### What a command leaves alone -/

/-- Every entry of every channel buffer reads as before. -/
def State.SameBuffers (s t : State) : Prop := ∀ ch p, t.bufRead ch p = s.bufRead ch p

/-- Every bank reads as before. -/
def State.SameFaders (s t : State) : Prop := ∀ e, t.fader e = s.fader e

/-- The lines, the pin trace and the chain are as before. -/
def State.SamePins (s t : State) : Prop :=
  t.lines = s.lines ∧ t.pinTrace = s.pinTrace ∧ t.shreg = s.shreg ∧ t.latched = s.latched

/-- Nothing of the LED Driver or the chain changed. -/
def State.SameDriver (s t : State) : Prop :=
  s.SameBuffers t ∧ t.lastUpdateTime = s.lastUpdateTime ∧ s.SamePins t

/-- The configuration, `ERR` and the host's pending events are as before. -/
def State.SameRest (s t : State) : Prop :=
  t.cfg = s.cfg ∧ t.err = s.err ∧ t.inbox = s.inbox

/-- A command answered one response word, and took a time if it carries one (`timeSeen`, the model's record of the host's
obligation of 00_scope R9; log 9). -/
def State.Answered (s t : State) (r : Response) (now : Option Time) : Prop :=
  t.responses = r :: s.responses ∧ t.timeSeen = now.getD s.timeSeen

/-- Only bank `e` may differ in the Fade Engine, and nothing in the driver. -/
def State.OnlyBank (s t : State) (e : Nat) : Prop :=
  (∀ e', e' ≠ e → t.fader e' = s.fader e') ∧ s.SameDriver t ∧ s.SameRest t

/-- The chain's latch and shift register both hold the frame of the buffers of `s`: bit `L-1-j` is bit `j` of the stream of
20_memory R62 (42_serial_output_stage R178). -/
def State.HoldsFrame (t s : State) : Prop :=
  t.shreg = t.latched ∧ t.latched < 2 ^ s.chainBits ∧
    ∀ j, j < s.chainBits → t.latched.testBit (s.chainBits - 1 - j) = s.frameBit j

/-- The events of `SHIFT_BIT` over a list of bits, newest first, `data` being the level of DATA before it: DATA where the level
changes, then the clock pulse (42_serial_output_stage R171). -/
def bitEvents : Bool → List Bool → List PinEvent
  | _, [] => []
  | data, v :: bits =>
    bitEvents v bits ++ (⟨.clk, false⟩ :: ⟨.clk, true⟩ :: (if data = v then [] else [⟨.data, v⟩]))

/-- The events of `SHIFT_FRAME` (41_led_driver R145), newest first. -/
def State.frameEvents (s : State) (data : Bool) : List PinEvent :=
  bitEvents data ((List.range s.chainBits).map s.frameBit)

/-- The number of events `(x, v)` in a piece of trace. -/
def eventCount (x : Line) (v : Bool) (tr : List PinEvent) : Nat := tr.count ⟨x, v⟩

end Sys2Proof.Machine

namespace Sys2Proof

/-! ### Encodings -/

/-- Every word whose `rsvd` is zero and whose opcode is `op` is the command that `read` takes from its fields, whatever its other
bits hold (30_encoding R81, R83, R84). -/
def ReadsAs (op : BitVec 8) (read : Word → Instr) : Prop :=
  ∀ w : Word, w.extractLsb' 0 4 = 0 → w.extractLsb' 152 8 = op → decode w = .ok (read w)

/-! ### The host's obligations -/

/-- The conditions under which a command is inside the spec at a state (00_scope R9, 40_fade_engine R111, 60_exceptions R231):
a command that raises `OutOfRange` always is; otherwise `now` is not earlier than before, and the end times of START_FADE fit. -/
def Instr.InsideSpec (i : Instr) (s : Machine.State) : Prop :=
  i.wellFormed s.cfg = true →
    (∀ now, i.now? = some now → s.timeSeen ≤ now) ∧
    (∀ sel now target fade hold, i = .startFade sel now target fade hold → Machine.holdEnd s.cfg now fade hold ≤ 2 ^ 32 - 1)

end Sys2Proof
end

