-- ==== Sys2Proof/Certificates/Slice0/Obligations.lean ====
section
/-! DEFINITION. The statements about the model, for the provers. -/

open Sys2Proof Sys2Proof.Machine

/-! ### Encoding -/

/-- 30_encoding R81, R82, R83: every command, with every operand at every value, is read back from its own word. -/
def Obligations.DecodeInvertsEncode : Prop :=
  ∀ i : Instr, decode (encode i) = .ok i

/-- 30_encoding R81, R83, R84: a word that decodes is, on the bits its command uses, the command's own word. -/
def Obligations.DecodedWordIsEncodingOnUsedBits : Prop :=
  ∀ (w : Word) (i : Instr), decode w = .ok i → w &&& i.usedMask = encode i

/-- 30_encoding R84: fields a command does not use may hold any bits; they change nothing and make no word illegal. -/
def Obligations.UnusedFieldsAreIgnored : Prop :=
  ∀ (w w' : Word) (i : Instr), decode w = .ok i → w' &&& i.usedMask = w &&& i.usedMask → decode w' = .ok i

/-- 30_encoding R86, R88 (1), (2): exactly the words with `rsvd` zero and one of the nine opcodes decode. -/
def Obligations.LegalWordsAreExactlyTheNineOpcodes : Prop :=
  ∀ w : Word, (∃ i, decode w = .ok i) ↔
    w.extractLsb' 0 4 = 0 ∧
      w.extractLsb' 152 8 ∈ ([0x01, 0x02, 0x03, 0x10, 0x11, 0x12, 0x13, 0x14, 0x15] : List (BitVec 8))

/-- Words written out from the tables of 30_encoding R81 and R83 decode to the commands they stand for (the examples of
30_encoding R89 and 95_test_vectors V3, V8, V10, P1, P3). -/
def Obligations.SpecWordsDecode : Prop :=
  decode 0x010001000003E8FFF800001000003E8000001F40 = .ok (.startFade 1 1000 ⟨4095, 2048, 1⟩ 1000 500) ∧
  decode 0x0100000000006400A01401E00000000FFFFFFFB0 = .ok (.startFade 0 100 ⟨10, 20, 30⟩ 0 (-5)) ∧
  decode 0x020001000005DC00000000000000000000000000 = .ok (.tick 1 1500) ∧
  decode 0x0300020000000000000000000000000000000000 = .ok (.feClear 2) ∧
  decode 0x10000000000000801002C0000000000000000000 = .ok (.write 0 ⟨0x801, 0x002, 0xC00⟩) ∧
  decode 0x110000000000000640C812C00000000000000000 = .ok (.writeAll ⟨100, 200, 300⟩) ∧
  decode 0x120000000003F200000000000000000000000000 = .ok (.flush 1010) ∧
  decode 0x1300000000000000000000000000000000000000 = .ok .blank ∧
  decode 0x1400000000000000000000000000000000000000 = .ok .unblank ∧
  decode 0x1500000000003200000000000000000000000000 = .ok (.init 50) ∧
  decode 0x1600000000000000000000000000000000000000 = .error .undefinedOpcode ∧
  decode 0x1300000000000000000000000000000000000001 = .error .reservedBitsSet

/-! ### The step -/

/-- 00_scope R8, 30_encoding R88: a presented word that decodes to a command is taken and runs that command's meaning; the host's
later events stay as they are. -/
def Obligations.StepRunsTheDecodedCommand : Prop :=
  ∀ (s : State) (w : Word) (rest : List HostEvent) (i : Instr),
    s.inbox = .command w :: rest → decode w = .ok i → step s = exec i { s with inbox := rest }

/-- Log 2, the model's reading of 60_exceptions R242 and 70_reset_and_hazards R252: with nothing presented the block waits. -/
def Obligations.BlockWaitsWithNothingPresented : Prop :=
  ∀ s : State, s.inbox = [] → step s = .next s

/-- 30_encoding R86, 60_exceptions R234: a word with an undefined opcode or nonzero `rsvd` raises IllegalCommand, whatever its
other fields hold; the all-zero and the all-ones word are such words. -/
def Obligations.IllegalWordRaisesIllegalCommand : Prop :=
  (∀ (s : State) (w : Word) (rest : List HostEvent),
    s.inbox = .command w :: rest →
    (w.extractLsb' 0 4 ≠ 0 ∨
      w.extractLsb' 152 8 ∉ ([0x01, 0x02, 0x03, 0x10, 0x11, 0x12, 0x13, 0x14, 0x15] : List (BitVec 8))) →
    step s = .next { s with inbox := rest, err := s.err ||| 0b10, responses := 0x02 :: s.responses }) ∧
  (∀ (s : State) (rest : List HostEvent),
    s.inbox = .command 0 :: rest ∨ s.inbox = .command (BitVec.allOnes 160) :: rest →
    step s = .next { s with inbox := rest, err := s.err ||| 0b10, responses := 0x02 :: s.responses })

/-- 70_reset_and_hazards R250, R251, 10_state R44: the reset event puts the block at its reset values, appends `(BLANK, 1)` if the
line was 0 and nothing else, sends no frame, and does not reach the chain; every LED output is dark. The clause that the response
record stays (a reset answers no response) is the model's reading, DEDUCED (log 3). -/
def Obligations.ResetEventResetsTheBlockNotTheChain : Prop :=
  ∀ (s : State) (rest : List HostEvent), s.inbox = .reset :: rest →
    ∃ t, step s = .next t ∧
      (∀ e, t.fader e = { acc := ⟨0, 0, 0⟩, target := ⟨0, 0, 0⟩, slope := ⟨0, 0, 0⟩, fadeEndTime := 0, holdEndTime := 0,
                          lastTickTime := 0, active := false }) ∧
      (∀ ch p, t.bufRead ch p = 0) ∧ t.lastUpdateTime = 0 ∧ t.blanked = true ∧
      t.lines = { clk := false, data := false, lat := false, blank := true } ∧ t.err = 0 ∧
      t.pinTrace = (if s.lines.blank then s.pinTrace else ⟨.blank, true⟩ :: s.pinTrace) ∧
      t.shreg = s.shreg ∧ t.latched = s.latched ∧ t.cfg = s.cfg ∧ t.responses = s.responses ∧ t.inbox = rest ∧
      (∀ p, t.ledOut p = ⟨0, 0, 0⟩)

/-- 10_state R44: the values after power-on, for every configuration and every contents of the chain. -/
def Obligations.PowerOnHoldsTheResetValues : Prop :=
  ∀ (c : Config) (sh la : BitVec (36 * c.nLed)),
    (∀ e, (State.powerOn c sh la).fader e =
      { acc := ⟨0, 0, 0⟩, target := ⟨0, 0, 0⟩, slope := ⟨0, 0, 0⟩, fadeEndTime := 0, holdEndTime := 0, lastTickTime := 0,
        active := false }) ∧
    (∀ e, (State.powerOn c sh la).current e = ⟨0, 0, 0⟩) ∧
    (∀ ch p, (State.powerOn c sh la).bufRead ch p = 0) ∧
    (State.powerOn c sh la).lastUpdateTime = 0 ∧
    (State.powerOn c sh la).lines = { clk := false, data := false, lat := false, blank := true } ∧
    (State.powerOn c sh la).err = 0 ∧ (State.powerOn c sh la).cfg = c ∧
    (State.powerOn c sh la).shreg = sh.toNat ∧ (State.powerOn c sh la).latched = la.toNat

/-- 60_exceptions R231: every command word in every state has an outcome with one response, or the trace it ends breaks a host
obligation and is refused by name: a command in range whose `now` is earlier than before (00_scope R9), or a START_FADE in range
and in time whose end time does not fit (40_fade_engine R111). -/
def Obligations.EveryWordHasOneOutcome : Prop :=
  ∀ (s : State) (w : Word) (rest : List HostEvent), s.inbox = .command w :: rest →
    (∃ t r, step s = .next t ∧ t.responses = r :: s.responses ∧ t.inbox = rest) ∨
    (∃ i now, decode w = .ok i ∧ i.wellFormed s.cfg = true ∧ i.now? = some now ∧ now < s.timeSeen ∧
      step s = .refused .timeWentBackwards) ∨
    (∃ sel now target fade hold, decode w = .ok (.startFade sel now target fade hold) ∧ sel.toNat < s.cfg.p ∧
      s.timeSeen ≤ now ∧ 2 ^ 32 - 1 < holdEnd s.cfg now fade hold ∧ step s = .refused .endTimeBeyondRange)

/-- 00_scope R9, 60_exceptions R231: a command inside the spec completes; the only commands that do not are those that break the
host's obligations, and an earlier `now` in range is refused as such. -/
def Obligations.CommandsInsideTheSpecComplete : Prop :=
  (∀ (i : Instr) (s : State), i.InsideSpec s ↔ ∃ t, exec i s = .next t) ∧
  (∀ (i : Instr) (s : State) (now : Time), i.wellFormed s.cfg = true → i.now? = some now → now < s.timeSeen →
    exec i s = .refused .timeWentBackwards)

/-- 30_encoding R90: one response word per command; its upper bits are zero, `11` is never produced, an error has no result bits,
`flushed` is for a FLUSH that was performed and for every INIT, `changed` for a Fading TICK that moved the 12-bit colour
(40_fade_engine R118). -/
def Obligations.ResponseWordHasItsFields : Prop :=
  ∀ (s t : State) (w : Word) (rest : List HostEvent), s.inbox = .command w :: rest → step s = .next t →
    ∃ r : Response, t.responses = r :: s.responses ∧ r.extractLsb' 4 4 = 0 ∧ r.extractLsb' 0 2 ≠ 0b11 ∧
      (r.extractLsb' 0 2 ≠ 0 → r.getLsbD 2 = false ∧ r.getLsbD 3 = false) ∧
      (r.getLsbD 3 = true ↔
        (∃ now, decode w = .ok (.flush now) ∧ s.lastUpdateTime.toNat + s.cfg.minUpdateInterval ≤ now.toNat) ∨
          ∃ now, decode w = .ok (.init now)) ∧
      (r.getLsbD 2 = true ↔ ∃ sel now, decode w = .ok (.tick sel now) ∧ sel.toNat < s.cfg.p ∧
        (s.fader sel.toNat).phase now = .fading ∧ t.current sel.toNat ≠ s.current sel.toNat) ∧
      (r.extractLsb' 0 2 = 0b10 ↔ ∀ i, decode w ≠ .ok i) ∧
      (r.extractLsb' 0 2 = 0b01 ↔ ∃ i, decode w = .ok i ∧ i.wellFormed s.cfg = false)

/-- 60_exceptions R237: the `ERR` bits are sticky through every command, and only reset clears them. -/
def Obligations.ErrBitsAreSticky : Prop :=
  ∀ s t : State, step s = .next t → (∀ rest, s.inbox ≠ .reset :: rest) → s.err &&& t.err = s.err

/-- 60_exceptions R233, R232: a fader command with `sel >= P` or a WRITE with `sel >= N_LED` raises OutOfRange and changes nothing
but `ERR[0]` and the response; no command in range touches `ERR`. -/
def Obligations.OutOfRangeChangesOnlyErrAndResponse : Prop :=
  (∀ (i : Instr) (s : State), i.wellFormed s.cfg = false →
    exec i s = .next { s with err := s.err ||| 0b01, responses := 0x01 :: s.responses }) ∧
  (∀ (i : Instr) (s t : State), i.wellFormed s.cfg = true → exec i s = .next t → t.err = s.err)

/-- 00_scope R5, 10_state R34, R42: no step changes the configuration. -/
def Obligations.ConfigurationIsConstant : Prop :=
  ∀ s t : State, step s = .next t → t.cfg = s.cfg

/-! ### The invariant -/

/-- 10_state R31, R22, R33, R39, 42_serial_output_stage R177: the invariant holds after power-on under every configuration and
with every chain contents, at `State.reset` among them. -/
def Obligations.InvariantHoldsAfterPowerOn : Prop :=
  (∀ (c : Config) (sh la : BitVec (36 * c.nLed)), (State.powerOn c sh la).Inv) ∧ State.reset.Inv

/-- 10_state R31, R22, R33, R39, 42_serial_output_stage R177: every step keeps the invariant: canonical memory, bank bounds and
time order, idle line levels, chain widths. -/
def Obligations.EveryStepKeepsTheInvariant : Prop :=
  ∀ s t : State, s.Inv → step s = .next t → t.Inv

/-- 40_fade_engine R120: with `MIN_DUR = 1` every step keeps every bank on course, so no accumulator passes its target. -/
def Obligations.WithUnitFloorEveryStepKeepsBanksOnCourse : Prop :=
  ∀ s t : State, s.cfg.minDur = 1 → s.Inv → s.OnCourse → step s = .next t → t.OnCourse

/-- 40_fade_engine R120: a Fading TICK of a bank on course moves each lane toward its target and not past it, so the clamp never
acts (`OnCourse` is kept by every step when `MIN_DUR = 1`, and holds after power-on). -/
def Obligations.OnCourseTickNeverPassesItsTarget : Prop :=
  (∀ (s : State) (sel : Sel) (now : Time), s.Inv → s.OnCourse → sel.toNat < s.cfg.p → s.timeSeen ≤ now →
    (s.fader sel.toNat).active = true → now < (s.fader sel.toNat).fadeEndTime →
    ∃ t, exec (.tick sel now) s = .next t ∧
      ∀ c, accVal ((t.fader sel.toNat).acc.get c) =
          accVal ((s.fader sel.toNat).acc.get c) +
            ((s.fader sel.toNat).slope.get c).toInt * ((now.toNat : Int) - (s.fader sel.toNat).lastTickTime.toNat) ∧
        BetweenZeroAnd (accVal ((t.fader sel.toNat).acc.get c) - accVal ((s.fader sel.toNat).acc.get c))
          (qOf ((s.fader sel.toNat).target.get c).toNat - accVal ((s.fader sel.toNat).acc.get c))) ∧
  (∀ (c : Config) (sh la : BitVec (36 * c.nLed)), (State.powerOn c sh la).OnCourse)

/-! ### Fade Engine -/

/-- 40_fade_engine R111: START_FADE in full: its result and frame, the out-of-range error, the refused end time. -/
def Obligations.StartFadeBeginsAFade : Prop :=
  ReadsAs 0x01 (fun w => .startFade (w.extractLsb' 136 16) (w.extractLsb' 104 32)
    ⟨w.extractLsb' 92 12, w.extractLsb' 80 12, w.extractLsb' 68 12⟩ (w.extractLsb' 36 32) (w.extractLsb' 4 32)) ∧
  (∀ (s : State) (sel : Sel) (now : Time) (target : Color) (fade hold : Dur) (D H : Int),
     D = max fade.toInt s.cfg.minDur → H = max hold.toInt s.cfg.minDur →
     (s.cfg.p ≤ sel.toNat → exec (.startFade sel now target fade hold) s =
       .next { s with err := s.err ||| 0b01, responses := 0x01 :: s.responses }) ∧
     (sel.toNat < s.cfg.p → s.timeSeen ≤ now → now.toNat + D + s.cfg.minDur + H + s.cfg.minDur ≤ 2 ^ 32 - 1 →
       ∃ t, exec (.startFade sel now target fade hold) s = .next t ∧
         (∀ c, ((t.fader sel.toNat).slope.get c).toInt =
           Int.tdiv (qOf (target.get c).toNat - accVal ((s.fader sel.toNat).acc.get c)) D) ∧
         (t.fader sel.toNat).target = target ∧
         ((t.fader sel.toNat).fadeEndTime.toNat : Int) = now.toNat + D + s.cfg.minDur ∧
         ((t.fader sel.toNat).holdEndTime.toNat : Int) = now.toNat + D + s.cfg.minDur + H + s.cfg.minDur ∧
         (t.fader sel.toNat).lastTickTime = now ∧ (t.fader sel.toNat).active = true ∧
         (t.fader sel.toNat).acc = (s.fader sel.toNat).acc ∧
         s.OnlyBank t sel.toNat ∧ s.Answered t 0x00 (some now)) ∧
     (sel.toNat < s.cfg.p → s.timeSeen ≤ now → 2 ^ 32 - 1 < now.toNat + D + s.cfg.minDur + H + s.cfg.minDur →
       exec (.startFade sel now target fade hold) s = .refused .endTimeBeyondRange))

/-- 40_fade_engine R114: the floored durations and the windows START_FADE opens. -/
def Obligations.StartFadeOpensItsWindows : Prop :=
  ∀ (s : State) (sel : Sel) (t0 : Time) (target : Color) (fade hold : Dur) (D H m : Int),
    D = max fade.toInt s.cfg.minDur → H = max hold.toInt s.cfg.minDur → m = s.cfg.minDur →
    sel.toNat < s.cfg.p → s.timeSeen ≤ t0 → t0.toNat + D + H + 2 * m ≤ 2 ^ 32 - 1 →
    ∃ t, exec (.startFade sel t0 target fade hold) s = .next t ∧
      m ≤ D ∧ D ≤ 2 ^ 31 - 1 ∧ m ≤ H ∧ H ≤ 2 ^ 31 - 1 ∧ 2 * m ≤ D + m ∧ 2 * m ≤ H + m ∧
      (t.fader sel.toNat).fadeEndTime < (t.fader sel.toNat).holdEndTime ∧
      ∀ u : Time, t0 ≤ u →
        ((t.fader sel.toNat).phase u = .fading ↔ (u.toNat : Int) < t0.toNat + D + m) ∧
        ((t.fader sel.toNat).phase u = .holding ↔
          t0.toNat + D + m ≤ (u.toNat : Int) ∧ (u.toNat : Int) < t0.toNat + D + H + 2 * m) ∧
        ((t.fader sel.toNat).phase u = .expired ↔ t0.toNat + D + H + 2 * m ≤ (u.toNat : Int))

/-- 40_fade_engine R115: the slope of START_FADE is bounded, has the sign of the distance or is zero, and after `D` milliseconds
falls short of the distance by less than `D` and never beyond it. -/
def Obligations.SlopeRoundsTowardZero : Prop :=
  ∀ (s : State) (sel : Sel) (now : Time) (target : Color) (fade hold : Dur) (D : Int),
    D = max fade.toInt s.cfg.minDur → sel.toNat < s.cfg.p → s.timeSeen ≤ now →
    holdEnd s.cfg now fade hold ≤ 2 ^ 32 - 1 → (∀ c, accVal ((s.fader sel.toNat).acc.get c) ≤ qMax) →
    ∃ t, exec (.startFade sel now target fade hold) s = .next t ∧
      ∀ (c : Channel) (m delta : Int), m = ((t.fader sel.toNat).slope.get c).toInt →
        delta = qOf (target.get c).toNat - accVal ((s.fader sel.toNat).acc.get c) →
        m = Int.tdiv delta D ∧ |m| ≤ qMax ∧ |m * D| ≤ |delta| ∧ |delta| - |m * D| < D ∧
        (0 < delta → 0 ≤ m) ∧ (delta < 0 → m ≤ 0) ∧ (delta = 0 → m = 0)

/-- 40_fade_engine R112, R117, R118: TICK in full: the out-of-range error and the four phases, each with its accumulators, its
`changed` bit, its other bank fields and its frame. -/
def Obligations.TickEvaluatesTheFader : Prop :=
  ReadsAs 0x02 (fun w => .tick (w.extractLsb' 136 16) (w.extractLsb' 104 32)) ∧
  (∀ (s : State) (sel : Sel) (now : Time) (f : Fader), f = s.fader sel.toNat →
     (s.cfg.p ≤ sel.toNat → exec (.tick sel now) s =
       .next { s with err := s.err ||| 0b01, responses := 0x01 :: s.responses }) ∧
     (sel.toNat < s.cfg.p → s.timeSeen ≤ now →
       ∃ (t : State) (g : Fader), exec (.tick sel now) s = .next t ∧ g = t.fader sel.toNat ∧
         s.OnlyBank t sel.toNat ∧
         g.target = f.target ∧ g.slope = f.slope ∧ g.fadeEndTime = f.fadeEndTime ∧ g.holdEndTime = f.holdEndTime ∧
         (f.active = false →
           (∀ c, accVal (g.acc.get c) = clampQ (accVal (f.acc.get c))) ∧
           g.lastTickTime = f.lastTickTime ∧ g.active = false ∧ s.Answered t 0x00 (some now)) ∧
         (f.active = true → now < f.fadeEndTime →
           (∀ c, accVal (g.acc.get c) =
             clampQ (accVal (f.acc.get c) + (f.slope.get c).toInt * ((now.toNat : Int) - f.lastTickTime.toNat))) ∧
           g.lastTickTime = now ∧ g.active = true ∧
           s.Answered t (if g.current = f.current then 0x00 else 0x04) (some now)) ∧
         (f.active = true → f.fadeEndTime ≤ now → now < f.holdEndTime →
           (∀ c, accVal (g.acc.get c) = qOf (f.target.get c).toNat) ∧
           g.lastTickTime = f.lastTickTime ∧ g.active = true ∧ s.Answered t 0x00 (some now)) ∧
         (f.active = true → f.fadeEndTime ≤ now → f.holdEndTime ≤ now →
           (∀ c, accVal (g.acc.get c) = clampQ (accVal (f.acc.get c))) ∧
           g.lastTickTime = f.lastTickTime ∧ g.active = false ∧ s.Answered t 0x00 (some now))))

/-- 10_state R24, R31 (d), 40_fade_engine R112: a TICK of an idle bank leaves the bank as it is, the final clamp being the identity
on a bank that meets R31 (a). -/
def Obligations.IdleTickFreezesTheBank : Prop :=
  ∀ (s : State) (sel : Sel) (now : Time), sel.toNat < s.cfg.p → s.timeSeen ≤ now →
    (s.fader sel.toNat).active = false → (∀ c, accVal ((s.fader sel.toNat).acc.get c) ≤ qMax) →
    ∃ t, exec (.tick sel now) s = .next t ∧ s.SameFaders t ∧ s.SameDriver t ∧ s.SameRest t ∧ s.Answered t 0x00 (some now)

/-- 40_fade_engine R119: TICK twice at the same time leaves the state TICK once leaves, and the second answers `changed = 0`. -/
def Obligations.TickTwiceIsTickOnce : Prop :=
  ∀ (s : State) (sel : Sel) (now : Time), sel.toNat < s.cfg.p → s.timeSeen ≤ now →
    ∃ t, exec (.tick sel now) s = .next t ∧
      exec (.tick sel now) t = .next { t with responses := 0x00 :: t.responses }

/-- 40_fade_engine R116: two Fading TICKs add up to one, as long as neither is clamped. -/
def Obligations.FadingTicksAddUp : Prop :=
  ∀ (s : State) (sel : Sel) (a b : Time) (f : Fader), f = s.fader sel.toNat →
    sel.toNat < s.cfg.p → s.timeSeen ≤ a → a ≤ b → f.active = true → b < f.fadeEndTime →
    (∀ c, 0 ≤ accVal (f.acc.get c) + (f.slope.get c).toInt * ((a.toNat : Int) - f.lastTickTime.toNat) ∧
      accVal (f.acc.get c) + (f.slope.get c).toInt * ((a.toNat : Int) - f.lastTickTime.toNat) ≤ qMax) →
    ∃ t u v, exec (.tick sel a) s = .next t ∧ exec (.tick sel b) t = .next u ∧ exec (.tick sel b) s = .next v ∧
      u.fader sel.toNat = v.fader sel.toNat

/-- 40_fade_engine R116: in every state that meets the invariant the exact sum of a Fading TICK lies within `(-2 QMAX, 3 QMAX)`,
and no time is negative. -/
def Obligations.FadingSumStaysInRange : Prop :=
  ∀ (s : State) (e : Nat) (now : Time), s.Inv → s.timeSeen ≤ now →
    (s.fader e).active = true → now < (s.fader e).fadeEndTime →
    0 ≤ (now.toNat : Int) - (s.fader e).lastTickTime.toNat ∧
    ∀ c, -2 * qMax < accVal ((s.fader e).acc.get c) +
          ((s.fader e).slope.get c).toInt * ((now.toNat : Int) - (s.fader e).lastTickTime.toNat) ∧
        accVal ((s.fader e).acc.get c) +
          ((s.fader e).slope.get c).toInt * ((now.toNat : Int) - (s.fader e).lastTickTime.toNat) < 3 * qMax

/-- 40_fade_engine R121: one TICK exactly `D` milliseconds after START_FADE leaves each accumulator short of its target by less than
`D` Q-units, not beyond it, and `current` within `ceil(D / 2^16)` counts of it (within 1 count for `D <= 65536`). -/
def Obligations.FadeIsAccurateAtItsNominalEnd : Prop :=
  ∀ (s : State) (sel : Sel) (t0 t1 : Time) (target : Color) (fade hold : Dur) (D : Int),
    D = max fade.toInt s.cfg.minDur → sel.toNat < s.cfg.p → s.timeSeen ≤ t0 →
    holdEnd s.cfg t0 fade hold ≤ 2 ^ 32 - 1 → (t1.toNat : Int) = t0.toNat + D →
    (∀ c, accVal ((s.fader sel.toNat).acc.get c) ≤ qMax) →
    ∃ t u, exec (.startFade sel t0 target fade hold) s = .next t ∧ exec (.tick sel t1) t = .next u ∧
      ∀ (c : Channel) (delta left gap : Int),
        delta = qOf (target.get c).toNat - accVal ((s.fader sel.toNat).acc.get c) →
        left = qOf (target.get c).toNat - accVal ((u.fader sel.toNat).acc.get c) →
        gap = ((target.get c).toNat : Int) - ((u.current sel.toNat).get c).toNat →
        |left| < D ∧ BetweenZeroAnd left delta ∧ |gap| * 2 ^ 16 < D + 2 ^ 16 ∧ (D ≤ 65536 → |gap| ≤ 1) ∧
        (0 ≤ delta → 0 ≤ gap) ∧ (delta ≤ 0 → gap ≤ 0)

/-- 40_fade_engine R112 corner case (c), 70_reset_and_hazards R262: if the first TICK after START_FADE falls at or after
`hold_end_time`, the fader goes idle where it stood, not at its target. -/
def Obligations.UntickedHoldNeverSnaps : Prop :=
  ∀ (s : State) (sel : Sel) (t0 t1 : Time) (target : Color) (fade hold : Dur),
    sel.toNat < s.cfg.p → s.timeSeen ≤ t0 → holdEnd s.cfg t0 fade hold ≤ t1.toNat →
    (∀ c, accVal ((s.fader sel.toNat).acc.get c) ≤ qMax) →
    ∃ t u, exec (.startFade sel t0 target fade hold) s = .next t ∧ exec (.tick sel t1) t = .next u ∧
      u.current sel.toNat = s.current sel.toNat ∧ u.active sel.toNat = false ∧ u.target sel.toNat = target

/-- 40_fade_engine R113: FE_CLEAR in full: the bank at its reset values, its frame, the out-of-range error. -/
def Obligations.FeClearResetsItsBank : Prop :=
  ReadsAs 0x03 (fun w => .feClear (w.extractLsb' 136 16)) ∧
  (∀ (s : State) (sel : Sel),
     (s.cfg.p ≤ sel.toNat → exec (.feClear sel) s =
       .next { s with err := s.err ||| 0b01, responses := 0x01 :: s.responses }) ∧
     (sel.toNat < s.cfg.p → ∃ t, exec (.feClear sel) s = .next t ∧
       t.fader sel.toNat = { acc := ⟨0, 0, 0⟩, target := ⟨0, 0, 0⟩, slope := ⟨0, 0, 0⟩, fadeEndTime := 0, holdEndTime := 0,
                             lastTickTime := 0, active := false } ∧
       s.OnlyBank t sel.toNat ∧ s.Answered t 0x00 none))

/-- 10_state R22, 41_led_driver R140: no command changes a bank other than the one it selects; a fader command changes nothing of
the driver, a driver command no bank. -/
def Obligations.UnitsAndBanksDoNotInterfere : Prop :=
  ∀ (i : Instr) (s t : State), exec i s = .next t →
    (∀ e, i.fader? ≠ some e → t.fader e = s.fader e) ∧ (i.fader? ≠ none → s.SameDriver t)

/-! ### LED Driver -/

/-- 41_led_driver R141: WRITE in full: the three entries at `TRANSLATION[sel]`, its frame, the out-of-range error. -/
def Obligations.WriteStoresOneColour : Prop :=
  ReadsAs 0x10 (fun w => .write (w.extractLsb' 136 16) ⟨w.extractLsb' 92 12, w.extractLsb' 80 12, w.extractLsb' 68 12⟩) ∧
  (∀ (s : State) (sel : Sel) (c : Color),
     (s.cfg.nLed ≤ sel.toNat → exec (.write sel c) s =
       .next { s with err := s.err ||| 0b01, responses := 0x01 :: s.responses }) ∧
     (sel.toNat < s.cfg.nLed → ∃ t p, exec (.write sel c) s = .next t ∧ s.cfg.translation[sel.toNat]? = some p ∧
       p < s.cfg.nLed ∧ t.bufRead .r p = c.r ∧ t.bufRead .g p = c.g ∧ t.bufRead .b p = c.b ∧
       (∀ ch p', p' ≠ p → t.bufRead ch p' = s.bufRead ch p') ∧
       s.SameFaders t ∧ s.SamePins t ∧ t.lastUpdateTime = s.lastUpdateTime ∧ s.SameRest t ∧ s.Answered t 0x00 none))

/-- 41_led_driver R142: WRITE_ALL in full: every entry of the buffers, and its frame. -/
def Obligations.WriteAllStoresOneColourEverywhere : Prop :=
  ReadsAs 0x11 (fun w => .writeAll ⟨w.extractLsb' 92 12, w.extractLsb' 80 12, w.extractLsb' 68 12⟩) ∧
  (∀ (s : State) (c : Color), ∃ t, exec (.writeAll c) s = .next t ∧
     (∀ ch p, p < s.cfg.nLed → t.bufRead ch p = c.get ch) ∧
     (∀ ch p, s.cfg.nLed ≤ p → t.bufRead ch p = s.bufRead ch p) ∧
     s.SameFaders t ∧ s.SamePins t ∧ t.lastUpdateTime = s.lastUpdateTime ∧ s.SameRest t ∧ s.Answered t 0x00 none)

/-- 41_led_driver R143: FLUSH in full, from idle lines: performed when due (the frame shifted and latched, the time recorded, the
lines back at their idle levels, DATA at the last bit), a silent no-op when not; `timeSeen` is the model's own (log 9). -/
def Obligations.FlushSendsTheFrameWhenDue : Prop :=
  ReadsAs 0x12 (fun w => .flush (w.extractLsb' 104 32)) ∧
  (∀ (s : State) (now : Time), s.timeSeen ≤ now → s.lines.clk = false → s.lines.lat = false →
     (s.lastUpdateTime.toNat + s.cfg.minUpdateInterval ≤ now.toNat → ∃ t, exec (.flush now) s = .next t ∧
       t.lastUpdateTime = now ∧ t.HoldsFrame s ∧
       t.lines = { s.lines with clk := false, data := (s.bufRead .g (s.cfg.nLed - 1)).getLsbD 0, lat := false } ∧
       t.pinTrace = ⟨.lat, false⟩ :: ⟨.lat, true⟩ :: (s.frameEvents s.lines.data ++ s.pinTrace) ∧
       s.SameBuffers t ∧ s.SameFaders t ∧ s.SameRest t ∧ s.Answered t 0x08 (some now)) ∧
     (now.toNat < s.lastUpdateTime.toNat + s.cfg.minUpdateInterval →
       exec (.flush now) s = .next { s with timeSeen := now, responses := 0x00 :: s.responses }))

/-- 41_led_driver R144: after a performed FLUSH the next one is performed exactly when `MIN_UPDATE_INTERVAL` has passed. -/
def Obligations.PerformedFlushesAreAnIntervalApart : Prop :=
  ∀ (s : State) (a b : Time), s.timeSeen ≤ a → s.lastUpdateTime.toNat + s.cfg.minUpdateInterval ≤ a.toNat → a ≤ b →
    ∃ t u, exec (.flush a) s = .next t ∧ exec (.flush b) t = .next u ∧
      (a.toNat + s.cfg.minUpdateInterval ≤ b.toNat → u.responses = 0x08 :: t.responses ∧ u.lastUpdateTime = b) ∧
      (b.toNat < a.toNat + s.cfg.minUpdateInterval → u = { t with timeSeen := b, responses := 0x00 :: t.responses })

/-- 41_led_driver R147: BLANK: the line and flag, the dark outputs, the frame; no event if already blanked. -/
def Obligations.BlankDarkensEveryLed : Prop :=
  ReadsAs 0x13 (fun _ => .blank) ∧
  (∀ s : State, ∃ t, exec .blank s = .next t ∧ t.blanked = true ∧ t.lines = { s.lines with blank := true } ∧
     (∀ p, t.ledOut p = ⟨0, 0, 0⟩) ∧
     t.pinTrace = (if s.lines.blank then s.pinTrace else ⟨.blank, true⟩ :: s.pinTrace) ∧
     s.SameBuffers t ∧ s.SameFaders t ∧ t.shreg = s.shreg ∧ t.latched = s.latched ∧ t.lastUpdateTime = s.lastUpdateTime ∧
     s.SameRest t ∧ s.Answered t 0x00 none)

/-- 41_led_driver R148: UNBLANK: the line and flag, the outputs of the last latched frame, the frame. -/
def Obligations.UnblankShowsTheLatchedFrame : Prop :=
  ReadsAs 0x14 (fun _ => .unblank) ∧
  (∀ s : State, ∃ t, exec .unblank s = .next t ∧ t.blanked = false ∧ t.lines = { s.lines with blank := false } ∧
     (∀ p, t.ledOut p = s.latchedColor p) ∧
     t.pinTrace = (if s.lines.blank then ⟨.blank, false⟩ :: s.pinTrace else s.pinTrace) ∧
     s.SameBuffers t ∧ s.SameFaders t ∧ t.shreg = s.shreg ∧ t.latched = s.latched ∧ t.lastUpdateTime = s.lastUpdateTime ∧
     s.SameRest t ∧ s.Answered t 0x00 none)

/-- 41_led_driver R149: INIT in full, from every line level: the frame of the present buffers, unthrottled, the time, the lines
and the unblank; buffers, banks and `ERR` kept. -/
def Obligations.InitSendsTheFrameUnthrottled : Prop :=
  ReadsAs 0x15 (fun w => .init (w.extractLsb' 104 32)) ∧
  (∀ (s : State) (now : Time), s.timeSeen ≤ now → ∃ t, exec (.init now) s = .next t ∧
     t.lastUpdateTime = now ∧ t.HoldsFrame s ∧ t.blanked = false ∧
     t.lines = { clk := false, data := (s.bufRead .g (s.cfg.nLed - 1)).getLsbD 0, lat := false, blank := false } ∧
     t.pinTrace = ⟨.blank, false⟩ :: ⟨.lat, false⟩ :: ⟨.lat, true⟩ :: (s.frameEvents false ++
       (if s.lines.blank then [] else [⟨.blank, true⟩]) ++ (if s.lines.lat then [⟨.lat, false⟩] else []) ++
       (if s.lines.data then [⟨.data, false⟩] else []) ++ (if s.lines.clk then [⟨.clk, false⟩] else []) ++ s.pinTrace) ∧
     s.SameBuffers t ∧ s.SameFaders t ∧ s.SameRest t ∧ s.Answered t 0x08 (some now))

/-- 42_serial_output_stage R178, R176, 41_led_driver R150: after a performed FLUSH or an INIT the chain holds the frame of the
buffers, each LED's latched colour is its buffer entry, and the outputs show it when not blanked. -/
def Obligations.LatchedColoursAreTheBuffers : Prop :=
  ∀ (s : State) (now : Time) (i : Instr), s.Inv → s.timeSeen ≤ now →
    i = .init now ∨ (i = .flush now ∧ s.lastUpdateTime.toNat + s.cfg.minUpdateInterval ≤ now.toNat) →
    ∃ t, exec i s = .next t ∧ t.HoldsFrame s ∧
      ∀ p, p < s.cfg.nLed → t.latchedColor p = ⟨s.bufRead .r p, s.bufRead .g p, s.bufRead .b p⟩ ∧
        (t.lines.blank = false → t.ledOut p = ⟨s.bufRead .r p, s.bufRead .g p, s.bufRead .b p⟩)

/-- 42_serial_output_stage R178: the result of an INIT, and of a performed FLUSH from idle lines, does not depend on what the chain
held before. -/
def Obligations.FrameForgetsTheOldChain : Prop :=
  (∀ (s : State) (now : Time) (sh la : Nat), exec (.init now) { s with shreg := sh, latched := la } = exec (.init now) s) ∧
  (∀ (s : State) (now : Time) (sh la : Nat), s.lines.clk = false → s.lines.lat = false →
    s.lastUpdateTime.toNat + s.cfg.minUpdateInterval ≤ now.toNat →
    exec (.flush now) { s with shreg := sh, latched := la } = exec (.flush now) s)

/-- 42_serial_output_stage R172, R174, 41_led_driver R150: only a performed FLUSH and an INIT move the chain; everything else leaves
`shreg`, `latched` and with them every latched colour. -/
def Obligations.OnlyFramesMoveTheChain : Prop :=
  ∀ s t : State, step s = .next t →
    (∀ now rest w, s.inbox = .command w :: rest → decode w = .ok (.flush now) →
      now.toNat < s.lastUpdateTime.toNat + s.cfg.minUpdateInterval) →
    (∀ now rest w, s.inbox = .command w :: rest → decode w ≠ .ok (.init now)) →
    t.shreg = s.shreg ∧ t.latched = s.latched ∧ ∀ p, t.latchedColor p = s.latchedColor p

/-- 42_serial_output_stage R179: what a performed FLUSH, a dropped FLUSH and an INIT append to the trace, from idle lines: the clock
and latch pulses, at most one DATA event a bit, and the BLANK events of INIT. -/
def Obligations.PulseCountsOfAFrame : Prop :=
  ∀ (s : State) (now : Time), s.timeSeen ≤ now → s.lines.clk = false → s.lines.lat = false →
    (s.lastUpdateTime.toNat + s.cfg.minUpdateInterval ≤ now.toNat → ∃ t tr, exec (.flush now) s = .next t ∧
      t.pinTrace = ⟨.lat, false⟩ :: ⟨.lat, true⟩ :: (tr ++ s.pinTrace) ∧
      eventCount .clk true tr = 36 * s.cfg.nLed ∧ eventCount .clk false tr = 36 * s.cfg.nLed ∧
      eventCount .data true tr + eventCount .data false tr ≤ 36 * s.cfg.nLed ∧
      (∀ ev ∈ tr, ev.line = .clk ∨ ev.line = .data)) ∧
    (now.toNat < s.lastUpdateTime.toNat + s.cfg.minUpdateInterval →
      ∃ t, exec (.flush now) s = .next t ∧ t.pinTrace = s.pinTrace) ∧
    (∃ t tr, exec (.init now) s = .next t ∧
      t.pinTrace = ⟨.blank, false⟩ :: ⟨.lat, false⟩ :: ⟨.lat, true⟩ ::
        (tr ++ (if s.lines.blank then [] else [⟨.blank, true⟩]) ++ (if s.lines.data then [⟨.data, false⟩] else []) ++
          s.pinTrace) ∧
      eventCount .clk true tr = 36 * s.cfg.nLed ∧ eventCount .clk false tr = 36 * s.cfg.nLed ∧
      eventCount .data true tr + eventCount .data false tr ≤ 36 * s.cfg.nLed ∧
      (∀ ev ∈ tr, ev.line = .clk ∨ ev.line = .data))

/-- 42_serial_output_stage R179, 41_led_driver R143: every command but FLUSH, INIT, BLANK and UNBLANK appends nothing to the trace. -/
def Obligations.OtherCommandsAreSilentOnThePins : Prop :=
  ∀ (i : Instr) (s t : State), exec i s = .next t →
    (∀ now, i ≠ .flush now) → (∀ now, i ≠ .init now) → i ≠ .blank → i ≠ .unblank → s.SamePins t

/-- 41_led_driver R143 corner case (a), 70_reset_and_hazards R267: a FLUSH does the same whether or not the chain is blanked. -/
def Obligations.FlushIsIndependentOfBlanking : Prop :=
  ∀ (s : State) (now : Time) (b : Bool), s.timeSeen ≤ now → ∃ t, exec (.flush now) s = .next t ∧
    exec (.flush now) { s with lines := { s.lines with blank := b } } = .next { t with lines := { t.lines with blank := b } }

/-- 20_memory R66 (b), R61, 41_led_driver R150: a WRITE and then a due FLUSH puts the colour on the LED at `TRANSLATION[sel]`, and it
shows there when not blanked. -/
def Obligations.WriteThenFlushShowsTheColour : Prop :=
  ∀ (s : State) (sel : Sel) (c : Color) (now : Time), s.Inv → sel.toNat < s.cfg.nLed → s.timeSeen ≤ now →
    s.lastUpdateTime.toNat + s.cfg.minUpdateInterval ≤ now.toNat →
    ∃ t u p, exec (.write sel c) s = .next t ∧ exec (.flush now) t = .next u ∧ s.cfg.translation[sel.toNat]? = some p ∧
      u.latchedColor p = c ∧ (s.lines.blank = false → u.ledOut p = c) ∧
      (∀ p', p' < s.cfg.nLed → p' ≠ p → u.latchedColor p' = ⟨s.bufRead .r p', s.bufRead .g p', s.bufRead .b p'⟩)

/-- 70_reset_and_hazards R253: an INIT after power-on, whatever the chain held, leaves the LEDs enabled and black and records its
time. -/
def Obligations.BootShowsBlack : Prop :=
  ∀ (c : Config) (sh la : BitVec (36 * c.nLed)) (now : Time),
    ∃ t, exec (.init now) (State.powerOn c sh la) = .next t ∧ t.blanked = false ∧ t.lastUpdateTime = now ∧
      ∀ p, p < c.nLed → t.ledOut p = ⟨0, 0, 0⟩

/-! ### Host sequencer -/

/-- 48_host_sequencer R203: a STOP step writes black to every LED and leaves the fade pool and the sequencer alone. -/
def Obligations.StopWritesBlackAndLeavesThePool : Prop :=
  ∀ h : HostSystem, h.seq.pattern = .stop → ∀ now : Time,
    ∃ h', h.patternStep now = .next h' ∧ h'.seq = h.seq ∧ h.block.SameFaders h'.block ∧ h.block.SamePins h'.block ∧
      ∀ ch p, p < h.block.cfg.nLed → h'.block.bufRead ch p = 0

/-- 48_host_sequencer R194: CHANGE_PATTERN clears every bank, resets the cursor and the flags, truncates and pads the colours, asks
for a flush, and touches nothing of the driver; an explicitly empty list is refused (93 U5). -/
def Obligations.ChangePatternResetsTheEngine : Prop :=
  ∀ (h : HostSystem) (pat : Pattern) (fade hold : Dur),
    (∀ cs : Option (List Color), cs ≠ some [] → ∃ h', h.changePattern pat fade hold cs = .next h' ∧
      (∀ e, e < h.block.cfg.p → h'.block.fader e = Fader.reset) ∧ h.block.SameDriver h'.block ∧
      h'.seq.pattern = pat ∧ h'.seq.fadeDuration = fade ∧ h'.seq.holdDuration = hold ∧ h'.seq.position = 0 ∧
      h'.seq.isFading = false ∧ h'.seq.changed = true ∧
      h'.seq.colorCount = (match cs with
        | none => h.seq.params.maxColors
        | some l => min l.length h.seq.params.maxColors) ∧
      h'.seq.colors.length = h.seq.params.maxColors ∧
      ∀ k, h'.seq.colorAt k = if k < h'.seq.colorCount then (cs.getD []).getD k black else black) ∧
    h.changePattern pat fade hold (some []) = .refused .emptyColorList

/-- 48_host_sequencer R197, with `SEQ_POST_INCREMENT = true`: a CHASER init gives each engine one START_FADE; engine `e` is targeted
at `colors[(position - e) mod color_count]` when there are at least as many colours as engines, and otherwise at
`colors[(position - e) mod P]` when that index is at most `color_count`, else at black. -/
def Obligations.ChaserInitAimsEveryEngine : Prop :=
  ∀ (h : HostSystem) (now : Time), h.seq.params.postIncrement = true → 1 ≤ h.seq.colorCount →
    h.block.timeSeen ≤ now → holdEnd h.block.cfg now h.seq.fadeDuration h.seq.holdDuration ≤ 2 ^ 32 - 1 →
    ∃ h', h.chaserInit now = .next h' ∧
      h'.block.responses = List.replicate h.block.cfg.p 0x00 ++ h.block.responses ∧ h.block.SameDriver h'.block ∧
      h'.seq.isFading = true ∧
      h'.seq.position = (h.seq.position + 1) % max h.seq.colorCount h.block.cfg.p ∧
      ∀ e, e < h.block.cfg.p → h'.block.active e = true ∧
        (h.block.cfg.p ≤ h.seq.colorCount →
          h'.block.target e = h.seq.colorAt (((h.seq.position : Int) - e) % h.seq.colorCount).toNat) ∧
        (h.seq.colorCount < h.block.cfg.p → ∀ k, k = (((h.seq.position : Int) - e) % h.block.cfg.p).toNat →
          h'.block.target e = if k ≤ h.seq.colorCount then h.seq.colorAt k else black)

/-- 48_host_sequencer R209: after CHANGE_PATTERN the inclusive test of CHASER's padding gives the colours the strict test would. -/
def Obligations.ChaserPaddingOffByOneIsHarmless : Prop :=
  ∀ (q : Sequencer) (pat : Pattern) (fade hold : Dur) (cs : List Color) (p position k : Nat), cs ≠ [] →
    (q.reconfigure pat fade hold (some cs)).colorCount < p →
    ((q.reconfigure pat fade hold (some cs)).chaserAssign p position k).2 =
      if k < (q.reconfigure pat fade hold (some cs)).colorCount then cs.getD k black else black
end

