-- ==== Sys2Proof/Laws/Store.lean ====
section
/-! SUPPORT. Laws of sparse cells: read after write, frame, canonical form. -/

namespace Sys2Proof.Machine

variable {α : Type} {d : α} {m : Store α} {k k' n : Nat} {v w : α}

@[simp] theorem Store.read_nil : Store.read d ([] : Store α) k = d := rfl

theorem Store.read_cons {c : Nat × α} : Store.read d (c :: m) k = if c.1 = k then c.2 else Store.read d m k := rfl

theorem Store.read_erase_self : Store.read d (Store.erase m k) k = d := by
  induction m with
  | nil => rfl
  | cons c m ih =>
    by_cases h : c.1 = k
    · simpa [Store.erase, h] using ih
    · simpa [Store.erase, h, Store.read_cons] using ih

theorem Store.read_erase_other (h : k' ≠ k) : Store.read d (Store.erase m k) k' = Store.read d m k' := by
  induction m with
  | nil => rfl
  | cons c m ih =>
    by_cases hc : c.1 = k
    · have : c.1 ≠ k' := by omega
      simpa [Store.erase, hc, Store.read_cons, this, h.symm] using ih
    · by_cases hk : c.1 = k'
      · simp [Store.erase, Store.read_cons, hk, h]
      · simpa [Store.erase, hc, Store.read_cons, hk] using ih

theorem Store.read_insert_other (h : k' ≠ k) : Store.read d (Store.insert k v m) k' = Store.read d m k' := by
  induction m with
  | nil => simp [Store.insert, Store.read_cons, h.symm]
  | cons c m ih =>
    simp only [Store.insert]
    split
    · simp [Store.read_cons, h.symm]
    · simp [Store.read_cons, ih]

theorem Store.read_insert_self (h : ∀ c ∈ m, c.1 ≠ k) : Store.read d (Store.insert k v m) k = v := by
  induction m with
  | nil => simp [Store.insert, Store.read_cons]
  | cons c m ih =>
    simp only [Store.insert]
    split
    · simp [Store.read_cons]
    · simp [Store.read_cons, h c (by simp), ih (fun c hc => h c (by simp [hc]))]

theorem Store.mem_erase {c : Nat × α} : c ∈ Store.erase m k ↔ c ∈ m ∧ c.1 ≠ k := by
  simp [Store.erase]

theorem Store.mem_insert {c : Nat × α} : c ∈ Store.insert k v m ↔ c = (k, v) ∨ c ∈ m := by
  induction m with
  | nil => simp [Store.insert]
  | cons a m ih =>
    simp only [Store.insert]
    split
    · simp
    · simp [ih]; tauto

theorem Store.erase_insert : Store.erase (Store.insert k v m) k = Store.erase m k := by
  induction m with
  | nil => simp [Store.insert, Store.erase]
  | cons a m ih =>
    simp only [Store.insert]
    split
    · simp [Store.erase]
    · simp only [Store.erase, List.filter_cons] at ih ⊢
      rw [ih]

theorem Store.erase_erase : Store.erase (Store.erase m k) k = Store.erase m k := by
  simp [Store.erase]

theorem Store.below_iff : Store.below n m = true ↔ ∀ c ∈ m, c.1 < n := by
  simp [Store.below]

theorem Store.pairwise_insert (hm : m.Pairwise (fun a b => a.1 < b.1)) (hk : ∀ c ∈ m, c.1 ≠ k) :
    (Store.insert k v m).Pairwise (fun a b => a.1 < b.1) := by
  induction m with
  | nil => simp [Store.insert]
  | cons a m ih =>
    rw [List.pairwise_cons] at hm
    simp only [Store.insert]
    split
    · next h =>
      refine List.pairwise_cons.2 ⟨fun c hc => ?_, List.pairwise_cons.2 hm⟩
      rcases List.mem_cons.1 hc with rfl | hc
      · exact h
      · exact h.trans (hm.1 c hc)
    · next h =>
      have ha : a.1 < k := lt_of_le_of_ne (by omega) (hk a (by simp))
      refine List.pairwise_cons.2 ⟨fun c hc => ?_, ih hm.2 fun c hc => hk c (by simp [hc])⟩
      rcases Store.mem_insert.1 hc with rfl | hc
      · exact ha
      · exact hm.1 c hc

variable [DecidableEq α]

/-- Reading the cell just written gives the value written. -/
@[simp] theorem Store.read_write_self : Store.read d (Store.write d m k v) k = v := by
  unfold Store.write
  split
  · next h => rw [Store.read_erase_self, h]
  · exact Store.read_insert_self fun c hc => (Store.mem_erase.1 hc).2

/-- A write leaves every other cell alone. -/
theorem Store.read_write_other (h : k' ≠ k) : Store.read d (Store.write d m k v) k' = Store.read d m k' := by
  unfold Store.write
  split
  · exact Store.read_erase_other h
  · rw [Store.read_insert_other h, Store.read_erase_other h]

theorem Store.read_write : Store.read d (Store.write d m k v) k' = if k' = k then v else Store.read d m k' := by
  split
  · next h => rw [h, Store.read_write_self]
  · next h => exact Store.read_write_other h

/-- Of two writes to one cell the second alone counts. -/
@[simp] theorem Store.write_write : Store.write d (Store.write d m k v) k w = Store.write d m k w := by
  have h : Store.erase (Store.write d m k v) k = Store.erase m k := by
    unfold Store.write
    split
    · exact Store.erase_erase
    · rw [Store.erase_insert, Store.erase_erase]
  unfold Store.write at h ⊢
  rw [h]

theorem Store.wf_iff : Store.wf d m = true ↔ m.Pairwise (fun a b => a.1 < b.1) ∧ ∀ c ∈ m, c.2 ≠ d := by
  simp [Store.wf]

/-- Every write keeps the canonical form. -/
theorem Store.wf_write (h : Store.wf d m = true) : Store.wf d (Store.write d m k v) = true := by
  rw [Store.wf_iff] at h ⊢
  have he : (Store.erase m k).Pairwise (fun a b => a.1 < b.1) := h.1.filter _
  unfold Store.write
  split
  · exact ⟨he, fun c hc => h.2 c (Store.mem_erase.1 hc).1⟩
  · next hv =>
    refine ⟨Store.pairwise_insert he fun c hc => (Store.mem_erase.1 hc).2, fun c hc => ?_⟩
    rcases Store.mem_insert.1 hc with rfl | hc
    · exact hv
    · exact h.2 c (Store.mem_erase.1 hc).1

/-- Writing a cell below `n` keeps all indices below `n`. -/
theorem Store.below_write (h : Store.below n m = true) (hk : k < n) : Store.below n (Store.write d m k v) = true := by
  rw [Store.below_iff] at h ⊢
  unfold Store.write
  intro c hc
  split at hc
  · exact h c (Store.mem_erase.1 hc).1
  · rcases Store.mem_insert.1 hc with rfl | hc
    · exact hk
    · exact h c (Store.mem_erase.1 hc).1

/-- In canonical form equal reads mean equal memories. -/
theorem Store.ext_of_wf {m' : Store α} (h : Store.wf d m = true) (h' : Store.wf d m' = true)
    (hr : ∀ k, Store.read d m k = Store.read d m' k) : m = m' := by
  have read_lt : ∀ (l : Store α) (k : Nat), (∀ c ∈ l, k < c.1) → Store.read d l k = d := by
    intro l k hl
    induction l with
    | nil => rfl
    | cons c l ih =>
      have := hl c (by simp)
      rw [Store.read_cons, if_neg (by omega), ih fun c hc => hl c (by simp [hc])]
  rw [Store.wf_iff] at h h'
  induction m generalizing m' with
  | nil =>
    cases m' with
    | nil => rfl
    | cons c m' => exact absurd (by simpa [Store.read_cons] using (hr c.1).symm) (h'.2 c (by simp))
  | cons a m ih =>
    cases m' with
    | nil => exact absurd (by simpa [Store.read_cons] using hr a.1) (h.2 a (by simp))
    | cons c m' =>
      have hp := List.pairwise_cons.1 h.1
      have hp' := List.pairwise_cons.1 h'.1
      have hac : a.1 = c.1 := by
        rcases lt_trichotomy a.1 c.1 with hlt | heq | hgt
        · have := hr a.1
          rw [Store.read_cons, if_pos rfl, read_lt (c :: m') a.1 (by
            intro x hx
            rcases List.mem_cons.1 hx with rfl | hx
            · exact hlt
            · exact hlt.trans (hp'.1 x hx))] at this
          exact absurd this (h.2 a (by simp))
        · exact heq
        · have := hr c.1
          rw [read_lt (a :: m) c.1 (by
            intro x hx
            rcases List.mem_cons.1 hx with rfl | hx
            · exact hgt
            · exact hgt.trans (hp.1 x hx)), Store.read_cons, if_pos rfl] at this
          exact absurd this.symm (h'.2 c (by simp))
      have hv : a = c := by
        refine Prod.ext hac ?_
        simpa [Store.read_cons, hac] using hr a.1
      subst hv
      congr 1
      refine ih ⟨hp.2, fun x hx => h.2 x (by simp [hx])⟩ ⟨hp'.2, fun x hx => h'.2 x (by simp [hx])⟩ fun k => ?_
      by_cases hk : a.1 = k
      · subst hk
        rw [read_lt m _ hp.1, read_lt m' _ hp'.1]
      · simpa [Store.read_cons, hk] using hr k

end Sys2Proof.Machine
end

