-- ==== Sys2Proof/Laws/State.lean ====
section
/-! SUPPORT. What each operation does to each field of the state, one lemma a field. -/

namespace Sys2Proof.Machine

variable (s : State)

/-! ### `setFader` -/

@[simp] theorem State.setFader_cfg (e : Nat) (f : Fader) : (s.setFader e f).cfg = s.cfg := rfl
@[simp] theorem State.setFader_faders (e : Nat) (f : Fader) : (s.setFader e f).faders = Store.write Fader.reset s.faders e f := rfl
@[simp] theorem State.setFader_bufR (e : Nat) (f : Fader) : (s.setFader e f).bufR = s.bufR := rfl
@[simp] theorem State.setFader_bufG (e : Nat) (f : Fader) : (s.setFader e f).bufG = s.bufG := rfl
@[simp] theorem State.setFader_bufB (e : Nat) (f : Fader) : (s.setFader e f).bufB = s.bufB := rfl
@[simp] theorem State.setFader_lastUpdateTime (e : Nat) (f : Fader) : (s.setFader e f).lastUpdateTime = s.lastUpdateTime := rfl
@[simp] theorem State.setFader_lines (e : Nat) (f : Fader) : (s.setFader e f).lines = s.lines := rfl
@[simp] theorem State.setFader_err (e : Nat) (f : Fader) : (s.setFader e f).err = s.err := rfl
@[simp] theorem State.setFader_shreg (e : Nat) (f : Fader) : (s.setFader e f).shreg = s.shreg := rfl
@[simp] theorem State.setFader_latched (e : Nat) (f : Fader) : (s.setFader e f).latched = s.latched := rfl
@[simp] theorem State.setFader_responses (e : Nat) (f : Fader) : (s.setFader e f).responses = s.responses := rfl
@[simp] theorem State.setFader_pinTrace (e : Nat) (f : Fader) : (s.setFader e f).pinTrace = s.pinTrace := rfl
@[simp] theorem State.setFader_inbox (e : Nat) (f : Fader) : (s.setFader e f).inbox = s.inbox := rfl
@[simp] theorem State.setFader_timeSeen (e : Nat) (f : Fader) : (s.setFader e f).timeSeen = s.timeSeen := rfl

/-! ### `respond` and `raise` -/

@[simp] theorem State.respond_cfg (c f : Bool) : (s.respond c f).cfg = s.cfg := rfl
@[simp] theorem State.respond_faders (c f : Bool) : (s.respond c f).faders = s.faders := rfl
@[simp] theorem State.respond_bufR (c f : Bool) : (s.respond c f).bufR = s.bufR := rfl
@[simp] theorem State.respond_bufG (c f : Bool) : (s.respond c f).bufG = s.bufG := rfl
@[simp] theorem State.respond_bufB (c f : Bool) : (s.respond c f).bufB = s.bufB := rfl
@[simp] theorem State.respond_lastUpdateTime (c f : Bool) : (s.respond c f).lastUpdateTime = s.lastUpdateTime := rfl
@[simp] theorem State.respond_lines (c f : Bool) : (s.respond c f).lines = s.lines := rfl
@[simp] theorem State.respond_err (c f : Bool) : (s.respond c f).err = s.err := rfl
@[simp] theorem State.respond_shreg (c f : Bool) : (s.respond c f).shreg = s.shreg := rfl
@[simp] theorem State.respond_latched (c f : Bool) : (s.respond c f).latched = s.latched := rfl
@[simp] theorem State.respond_responses (c f : Bool) : (s.respond c f).responses = responseWord c f 0 :: s.responses := rfl
@[simp] theorem State.respond_pinTrace (c f : Bool) : (s.respond c f).pinTrace = s.pinTrace := rfl
@[simp] theorem State.respond_inbox (c f : Bool) : (s.respond c f).inbox = s.inbox := rfl
@[simp] theorem State.respond_timeSeen (c f : Bool) : (s.respond c f).timeSeen = s.timeSeen := rfl

@[simp] theorem State.raise_cfg (e : Err) : (s.raise e).cfg = s.cfg := rfl
@[simp] theorem State.raise_faders (e : Err) : (s.raise e).faders = s.faders := rfl
@[simp] theorem State.raise_bufR (e : Err) : (s.raise e).bufR = s.bufR := rfl
@[simp] theorem State.raise_bufG (e : Err) : (s.raise e).bufG = s.bufG := rfl
@[simp] theorem State.raise_bufB (e : Err) : (s.raise e).bufB = s.bufB := rfl
@[simp] theorem State.raise_lastUpdateTime (e : Err) : (s.raise e).lastUpdateTime = s.lastUpdateTime := rfl
@[simp] theorem State.raise_lines (e : Err) : (s.raise e).lines = s.lines := rfl
@[simp] theorem State.raise_err (e : Err) : (s.raise e).err = s.err ||| e.stickyBit := rfl
@[simp] theorem State.raise_shreg (e : Err) : (s.raise e).shreg = s.shreg := rfl
@[simp] theorem State.raise_latched (e : Err) : (s.raise e).latched = s.latched := rfl
@[simp] theorem State.raise_responses (e : Err) : (s.raise e).responses = responseWord false false e.code :: s.responses := rfl
@[simp] theorem State.raise_pinTrace (e : Err) : (s.raise e).pinTrace = s.pinTrace := rfl
@[simp] theorem State.raise_inbox (e : Err) : (s.raise e).inbox = s.inbox := rfl
@[simp] theorem State.raise_timeSeen (e : Err) : (s.raise e).timeSeen = s.timeSeen := rfl

/-! ### `present` and `applyReset` -/

@[simp] theorem State.present_cfg (w : Word) : (s.present w).cfg = s.cfg := rfl
@[simp] theorem State.present_faders (w : Word) : (s.present w).faders = s.faders := rfl
@[simp] theorem State.present_bufR (w : Word) : (s.present w).bufR = s.bufR := rfl
@[simp] theorem State.present_bufG (w : Word) : (s.present w).bufG = s.bufG := rfl
@[simp] theorem State.present_bufB (w : Word) : (s.present w).bufB = s.bufB := rfl
@[simp] theorem State.present_lastUpdateTime (w : Word) : (s.present w).lastUpdateTime = s.lastUpdateTime := rfl
@[simp] theorem State.present_lines (w : Word) : (s.present w).lines = s.lines := rfl
@[simp] theorem State.present_err (w : Word) : (s.present w).err = s.err := rfl
@[simp] theorem State.present_shreg (w : Word) : (s.present w).shreg = s.shreg := rfl
@[simp] theorem State.present_latched (w : Word) : (s.present w).latched = s.latched := rfl
@[simp] theorem State.present_responses (w : Word) : (s.present w).responses = s.responses := rfl
@[simp] theorem State.present_pinTrace (w : Word) : (s.present w).pinTrace = s.pinTrace := rfl
@[simp] theorem State.present_inbox (w : Word) : (s.present w).inbox = .command w :: s.inbox := rfl
@[simp] theorem State.present_timeSeen (w : Word) : (s.present w).timeSeen = s.timeSeen := rfl

@[simp] theorem State.applyReset_cfg : (s.applyReset).cfg = s.cfg := rfl
@[simp] theorem State.applyReset_faders : (s.applyReset).faders = [] := rfl
@[simp] theorem State.applyReset_bufR : (s.applyReset).bufR = [] := rfl
@[simp] theorem State.applyReset_bufG : (s.applyReset).bufG = [] := rfl
@[simp] theorem State.applyReset_bufB : (s.applyReset).bufB = [] := rfl
@[simp] theorem State.applyReset_lastUpdateTime : (s.applyReset).lastUpdateTime = 0 := rfl
@[simp] theorem State.applyReset_lines : (s.applyReset).lines = { clk := false, data := false, lat := false, blank := true } := rfl
@[simp] theorem State.applyReset_err : (s.applyReset).err = 0 := rfl
@[simp] theorem State.applyReset_shreg : (s.applyReset).shreg = s.shreg := rfl
@[simp] theorem State.applyReset_latched : (s.applyReset).latched = s.latched := rfl
@[simp] theorem State.applyReset_responses : (s.applyReset).responses = s.responses := rfl
@[simp] theorem State.applyReset_pinTrace : (s.applyReset).pinTrace = if s.lines.blank then s.pinTrace else ⟨.blank, true⟩ :: s.pinTrace := rfl
@[simp] theorem State.applyReset_inbox : (s.applyReset).inbox = s.inbox := rfl
@[simp] theorem State.applyReset_timeSeen : (s.applyReset).timeSeen = 0 := rfl

/-! ### `bufWrite` and `bufWriteColor` -/

@[simp] theorem State.bufWrite_cfg (ch : Channel) (p : Nat) (v : Chan) : (s.bufWrite ch p v).cfg = s.cfg := by cases ch <;> rfl
@[simp] theorem State.bufWrite_faders (ch : Channel) (p : Nat) (v : Chan) : (s.bufWrite ch p v).faders = s.faders := by cases ch <;> rfl
@[simp] theorem State.bufWrite_lastUpdateTime (ch : Channel) (p : Nat) (v : Chan) : (s.bufWrite ch p v).lastUpdateTime = s.lastUpdateTime := by cases ch <;> rfl
@[simp] theorem State.bufWrite_lines (ch : Channel) (p : Nat) (v : Chan) : (s.bufWrite ch p v).lines = s.lines := by cases ch <;> rfl
@[simp] theorem State.bufWrite_err (ch : Channel) (p : Nat) (v : Chan) : (s.bufWrite ch p v).err = s.err := by cases ch <;> rfl
@[simp] theorem State.bufWrite_shreg (ch : Channel) (p : Nat) (v : Chan) : (s.bufWrite ch p v).shreg = s.shreg := by cases ch <;> rfl
@[simp] theorem State.bufWrite_latched (ch : Channel) (p : Nat) (v : Chan) : (s.bufWrite ch p v).latched = s.latched := by cases ch <;> rfl
@[simp] theorem State.bufWrite_responses (ch : Channel) (p : Nat) (v : Chan) : (s.bufWrite ch p v).responses = s.responses := by cases ch <;> rfl
@[simp] theorem State.bufWrite_pinTrace (ch : Channel) (p : Nat) (v : Chan) : (s.bufWrite ch p v).pinTrace = s.pinTrace := by cases ch <;> rfl
@[simp] theorem State.bufWrite_inbox (ch : Channel) (p : Nat) (v : Chan) : (s.bufWrite ch p v).inbox = s.inbox := by cases ch <;> rfl
@[simp] theorem State.bufWrite_timeSeen (ch : Channel) (p : Nat) (v : Chan) : (s.bufWrite ch p v).timeSeen = s.timeSeen := by cases ch <;> rfl

@[simp] theorem State.bufWriteColor_cfg (p : Nat) (c : Color) : (s.bufWriteColor p c).cfg = s.cfg := rfl
@[simp] theorem State.bufWriteColor_faders (p : Nat) (c : Color) : (s.bufWriteColor p c).faders = s.faders := rfl
@[simp] theorem State.bufWriteColor_bufR (p : Nat) (c : Color) : (s.bufWriteColor p c).bufR = Store.write 0 s.bufR p c.r := rfl
@[simp] theorem State.bufWriteColor_bufG (p : Nat) (c : Color) : (s.bufWriteColor p c).bufG = Store.write 0 s.bufG p c.g := rfl
@[simp] theorem State.bufWriteColor_bufB (p : Nat) (c : Color) : (s.bufWriteColor p c).bufB = Store.write 0 s.bufB p c.b := rfl
@[simp] theorem State.bufWriteColor_lastUpdateTime (p : Nat) (c : Color) : (s.bufWriteColor p c).lastUpdateTime = s.lastUpdateTime := rfl
@[simp] theorem State.bufWriteColor_lines (p : Nat) (c : Color) : (s.bufWriteColor p c).lines = s.lines := rfl
@[simp] theorem State.bufWriteColor_err (p : Nat) (c : Color) : (s.bufWriteColor p c).err = s.err := rfl
@[simp] theorem State.bufWriteColor_shreg (p : Nat) (c : Color) : (s.bufWriteColor p c).shreg = s.shreg := rfl
@[simp] theorem State.bufWriteColor_latched (p : Nat) (c : Color) : (s.bufWriteColor p c).latched = s.latched := rfl
@[simp] theorem State.bufWriteColor_responses (p : Nat) (c : Color) : (s.bufWriteColor p c).responses = s.responses := rfl
@[simp] theorem State.bufWriteColor_pinTrace (p : Nat) (c : Color) : (s.bufWriteColor p c).pinTrace = s.pinTrace := rfl
@[simp] theorem State.bufWriteColor_inbox (p : Nat) (c : Color) : (s.bufWriteColor p c).inbox = s.inbox := rfl
@[simp] theorem State.bufWriteColor_timeSeen (p : Nat) (c : Color) : (s.bufWriteColor p c).timeSeen = s.timeSeen := rfl

/-! ### `chainEdge` and `pin` -/

@[simp] theorem State.chainEdge_cfg (x : Line) (v : Bool) : (s.chainEdge x v).cfg = s.cfg := by cases x <;> cases v <;> rfl
@[simp] theorem State.chainEdge_faders (x : Line) (v : Bool) : (s.chainEdge x v).faders = s.faders := by cases x <;> cases v <;> rfl
@[simp] theorem State.chainEdge_bufR (x : Line) (v : Bool) : (s.chainEdge x v).bufR = s.bufR := by cases x <;> cases v <;> rfl
@[simp] theorem State.chainEdge_bufG (x : Line) (v : Bool) : (s.chainEdge x v).bufG = s.bufG := by cases x <;> cases v <;> rfl
@[simp] theorem State.chainEdge_bufB (x : Line) (v : Bool) : (s.chainEdge x v).bufB = s.bufB := by cases x <;> cases v <;> rfl
@[simp] theorem State.chainEdge_lastUpdateTime (x : Line) (v : Bool) : (s.chainEdge x v).lastUpdateTime = s.lastUpdateTime := by cases x <;> cases v <;> rfl
@[simp] theorem State.chainEdge_lines (x : Line) (v : Bool) : (s.chainEdge x v).lines = s.lines := by cases x <;> cases v <;> rfl
@[simp] theorem State.chainEdge_err (x : Line) (v : Bool) : (s.chainEdge x v).err = s.err := by cases x <;> cases v <;> rfl
@[simp] theorem State.chainEdge_responses (x : Line) (v : Bool) : (s.chainEdge x v).responses = s.responses := by cases x <;> cases v <;> rfl
@[simp] theorem State.chainEdge_pinTrace (x : Line) (v : Bool) : (s.chainEdge x v).pinTrace = s.pinTrace := by cases x <;> cases v <;> rfl
@[simp] theorem State.chainEdge_inbox (x : Line) (v : Bool) : (s.chainEdge x v).inbox = s.inbox := by cases x <;> cases v <;> rfl
@[simp] theorem State.chainEdge_timeSeen (x : Line) (v : Bool) : (s.chainEdge x v).timeSeen = s.timeSeen := by cases x <;> cases v <;> rfl

@[simp] theorem State.pin_cfg (x : Line) (v : Bool) : (s.pin x v).cfg = s.cfg := by unfold State.pin; split <;> simp
@[simp] theorem State.pin_faders (x : Line) (v : Bool) : (s.pin x v).faders = s.faders := by unfold State.pin; split <;> simp
@[simp] theorem State.pin_bufR (x : Line) (v : Bool) : (s.pin x v).bufR = s.bufR := by unfold State.pin; split <;> simp
@[simp] theorem State.pin_bufG (x : Line) (v : Bool) : (s.pin x v).bufG = s.bufG := by unfold State.pin; split <;> simp
@[simp] theorem State.pin_bufB (x : Line) (v : Bool) : (s.pin x v).bufB = s.bufB := by unfold State.pin; split <;> simp
@[simp] theorem State.pin_lastUpdateTime (x : Line) (v : Bool) : (s.pin x v).lastUpdateTime = s.lastUpdateTime := by unfold State.pin; split <;> simp
@[simp] theorem State.pin_err (x : Line) (v : Bool) : (s.pin x v).err = s.err := by unfold State.pin; split <;> simp
@[simp] theorem State.pin_responses (x : Line) (v : Bool) : (s.pin x v).responses = s.responses := by unfold State.pin; split <;> simp
@[simp] theorem State.pin_inbox (x : Line) (v : Bool) : (s.pin x v).inbox = s.inbox := by unfold State.pin; split <;> simp
@[simp] theorem State.pin_timeSeen (x : Line) (v : Bool) : (s.pin x v).timeSeen = s.timeSeen := by unfold State.pin; split <;> simp

@[simp] theorem State.shiftBit_cfg (v : Bool) : (s.shiftBit v).cfg = s.cfg := by simp [State.shiftBit]
@[simp] theorem State.shiftBit_faders (v : Bool) : (s.shiftBit v).faders = s.faders := by simp [State.shiftBit]
@[simp] theorem State.shiftBit_bufR (v : Bool) : (s.shiftBit v).bufR = s.bufR := by simp [State.shiftBit]
@[simp] theorem State.shiftBit_bufG (v : Bool) : (s.shiftBit v).bufG = s.bufG := by simp [State.shiftBit]
@[simp] theorem State.shiftBit_bufB (v : Bool) : (s.shiftBit v).bufB = s.bufB := by simp [State.shiftBit]
@[simp] theorem State.shiftBit_lastUpdateTime (v : Bool) : (s.shiftBit v).lastUpdateTime = s.lastUpdateTime := by simp [State.shiftBit]
@[simp] theorem State.shiftBit_err (v : Bool) : (s.shiftBit v).err = s.err := by simp [State.shiftBit]
@[simp] theorem State.shiftBit_responses (v : Bool) : (s.shiftBit v).responses = s.responses := by simp [State.shiftBit]
@[simp] theorem State.shiftBit_inbox (v : Bool) : (s.shiftBit v).inbox = s.inbox := by simp [State.shiftBit]
@[simp] theorem State.shiftBit_timeSeen (v : Bool) : (s.shiftBit v).timeSeen = s.timeSeen := by simp [State.shiftBit]

@[simp] theorem State.latchPulse_cfg : (s.latchPulse).cfg = s.cfg := by simp [State.latchPulse]
@[simp] theorem State.latchPulse_faders : (s.latchPulse).faders = s.faders := by simp [State.latchPulse]
@[simp] theorem State.latchPulse_bufR : (s.latchPulse).bufR = s.bufR := by simp [State.latchPulse]
@[simp] theorem State.latchPulse_bufG : (s.latchPulse).bufG = s.bufG := by simp [State.latchPulse]
@[simp] theorem State.latchPulse_bufB : (s.latchPulse).bufB = s.bufB := by simp [State.latchPulse]
@[simp] theorem State.latchPulse_lastUpdateTime : (s.latchPulse).lastUpdateTime = s.lastUpdateTime := by simp [State.latchPulse]
@[simp] theorem State.latchPulse_err : (s.latchPulse).err = s.err := by simp [State.latchPulse]
@[simp] theorem State.latchPulse_responses : (s.latchPulse).responses = s.responses := by simp [State.latchPulse]
@[simp] theorem State.latchPulse_inbox : (s.latchPulse).inbox = s.inbox := by simp [State.latchPulse]
@[simp] theorem State.latchPulse_timeSeen : (s.latchPulse).timeSeen = s.timeSeen := by simp [State.latchPulse]

@[simp] theorem State.configureAndBlank_cfg : (s.configureAndBlank).cfg = s.cfg := by simp [State.configureAndBlank]
@[simp] theorem State.configureAndBlank_faders : (s.configureAndBlank).faders = s.faders := by simp [State.configureAndBlank]
@[simp] theorem State.configureAndBlank_bufR : (s.configureAndBlank).bufR = s.bufR := by simp [State.configureAndBlank]
@[simp] theorem State.configureAndBlank_bufG : (s.configureAndBlank).bufG = s.bufG := by simp [State.configureAndBlank]
@[simp] theorem State.configureAndBlank_bufB : (s.configureAndBlank).bufB = s.bufB := by simp [State.configureAndBlank]
@[simp] theorem State.configureAndBlank_lastUpdateTime : (s.configureAndBlank).lastUpdateTime = s.lastUpdateTime := by simp [State.configureAndBlank]
@[simp] theorem State.configureAndBlank_err : (s.configureAndBlank).err = s.err := by simp [State.configureAndBlank]
@[simp] theorem State.configureAndBlank_responses : (s.configureAndBlank).responses = s.responses := by simp [State.configureAndBlank]
@[simp] theorem State.configureAndBlank_inbox : (s.configureAndBlank).inbox = s.inbox := by simp [State.configureAndBlank]
@[simp] theorem State.configureAndBlank_timeSeen : (s.configureAndBlank).timeSeen = s.timeSeen := by simp [State.configureAndBlank]

/-! ### Reads -/

/-- `BufWrite` then `BufRead` (20_memory R61, R64). -/
theorem State.bufRead_bufWrite (ch ch' : Channel) (p p' : Nat) (v : Chan) :
    (s.bufWrite ch p v).bufRead ch' p' = if ch' = ch ∧ p' = p then v else s.bufRead ch' p' := by
  cases ch <;> cases ch' <;> simp [State.bufWrite, State.bufRead, State.buffer, Store.read_write]

theorem State.bufRead_bufWriteColor (ch : Channel) (p p' : Nat) (c : Color) :
    (s.bufWriteColor p c).bufRead ch p' = if p' = p then c.get ch else s.bufRead ch p' := by
  cases ch <;> simp [State.bufRead, State.buffer, Store.read_write, Lanes.get]

/-- Only the buffers decide what is read from them. -/
theorem State.bufRead_congr {s t : State} (hr : t.bufR = s.bufR) (hg : t.bufG = s.bufG) (hb : t.bufB = s.bufB)
    (ch : Channel) (p : Nat) : t.bufRead ch p = s.bufRead ch p := by
  cases ch <;> simp [State.bufRead, State.buffer, hr, hg, hb]

theorem State.fader_congr {s t : State} (h : t.faders = s.faders) (e : Nat) : t.fader e = s.fader e := by
  simp [State.fader, h]

/-- A bank written is the bank read; the others are as before (10_state R22). -/
theorem State.fader_setFader (e e' : Nat) (f : Fader) :
    (s.setFader e f).fader e' = if e' = e then f else s.fader e' := by
  simp [State.fader, Store.read_write]

theorem State.setFader_setFader (e : Nat) (f g : Fader) : (s.setFader e f).setFader e g = s.setFader e g := by
  simp [State.setFader]

/-! ### Canonical form: every operation on the buffers and the banks keeps it -/

/-- One channel written: that buffer has the cell, the others are as they were. -/
theorem State.buffer_bufWrite (ch ch' : Channel) (p : Nat) (v : Chan) :
    (s.bufWrite ch' p v).buffer ch = if ch = ch' then Store.write 0 (s.buffer ch) p v else s.buffer ch := by
  cases ch <;> cases ch' <;> rfl

theorem State.wf_bufWrite (ch ch' : Channel) (p : Nat) (v : Chan) (h : Memory.wf (s.buffer ch) = true) :
    Memory.wf ((s.bufWrite ch' p v).buffer ch) = true := by
  rw [State.buffer_bufWrite]
  split
  · exact Store.wf_write h
  · exact h

theorem State.wf_bufWriteColor (ch : Channel) (p : Nat) (c : Color) (h : Memory.wf (s.buffer ch) = true) :
    Memory.wf ((s.bufWriteColor p c).buffer ch) = true :=
  State.wf_bufWrite _ _ _ _ _ (State.wf_bufWrite _ _ _ _ _ (State.wf_bufWrite _ _ _ _ _ h))

theorem State.wf_writeAllLeds (ch : Channel) (c : Color) (h : Memory.wf (s.buffer ch) = true) :
    Memory.wf ((s.writeAllLeds c).buffer ch) = true := by
  unfold State.writeAllLeds
  generalize List.range s.cfg.nLed = ls
  suffices h' : ∀ t : State, Memory.wf (t.buffer ch) = true →
      Memory.wf ((ls.foldl (fun t li => t.bufWriteColor (physIndex s.cfg li) c) t).buffer ch) = true from h' s h
  induction ls with
  | nil => exact fun _ h => h
  | cons li rest ih => exact fun t ht => ih _ (State.wf_bufWriteColor t ch _ c ht)

theorem State.below_bufWrite (ch ch' : Channel) (p n : Nat) (v : Chan) (h : Store.below n (s.buffer ch) = true) (hp : p < n) :
    Store.below n ((s.bufWrite ch' p v).buffer ch) = true := by
  rw [State.buffer_bufWrite]
  split
  · exact Store.below_write h hp
  · exact h

theorem State.below_bufWriteColor (ch : Channel) (p n : Nat) (c : Color) (h : Store.below n (s.buffer ch) = true) (hp : p < n) :
    Store.below n ((s.bufWriteColor p c).buffer ch) = true :=
  State.below_bufWrite _ _ _ _ _ _ (State.below_bufWrite _ _ _ _ _ _ (State.below_bufWrite _ _ _ _ _ _ h hp) hp) hp

theorem State.wf_setFader (e : Nat) (f : Fader) (h : Store.wf Fader.reset s.faders = true) :
    Store.wf Fader.reset (s.setFader e f).faders = true := Store.wf_write h

/-- The memory of the machine after reset is canonical. -/
theorem State.wf_reset (ch : Channel) : Memory.wf (State.reset.buffer ch) = true := by cases ch <;> rfl

end Sys2Proof.Machine
end

