-- ==== Sys2Proof/Laws/Chain.lean ====
section
/-! SUPPORT. The serial output stage: what driving a line does, what a stream of bits does, and the frame in the chain. -/

namespace Sys2Proof.Machine

/-! ### One line -/

theorem State.pin_same {s : State} {x : Line} {v : Bool} (h : s.lines.get x = v) : s.pin x v = s := by
  simp [State.pin, h]

theorem State.pin_change {s : State} {x : Line} {v : Bool} (h : s.lines.get x ≠ v) :
    s.pin x v = State.chainEdge { s with lines := s.lines.set x v, pinTrace := ⟨x, v⟩ :: s.pinTrace } x v := by
  simp [State.pin, h]

@[simp] theorem State.pin_lines (s : State) (x : Line) (v : Bool) : (s.pin x v).lines = s.lines.set x v := by
  unfold State.pin
  split
  · next h => subst h; cases x <;> rfl
  · simp

@[simp] theorem State.pin_pinTrace (s : State) (x : Line) (v : Bool) :
    (s.pin x v).pinTrace = if s.lines.get x = v then s.pinTrace else ⟨x, v⟩ :: s.pinTrace := by
  unfold State.pin
  split <;> simp

/-- Driving DATA or BLANK, or a line low, leaves the chain alone (42_serial_output_stage R172, R174). -/
theorem State.pin_quiet {s : State} {x : Line} {v : Bool} (h : v = false ∨ x = .data ∨ x = .blank) :
    (s.pin x v).shreg = s.shreg ∧ (s.pin x v).latched = s.latched := by
  unfold State.pin
  split
  · simp
  · rcases h with rfl | rfl | rfl
    · cases x <;> simp [State.chainEdge]
    · simp [State.chainEdge]
    · simp [State.chainEdge]

theorem State.pin_blank_eq (s : State) (v : Bool) :
    s.pin .blank v = { s with
      lines := { s.lines with blank := v }
      pinTrace := if s.lines.blank = v then s.pinTrace else ⟨.blank, v⟩ :: s.pinTrace } := by
  unfold State.pin
  split
  · next h =>
    have h' : s.lines.blank = v := h
    subst h'
    simp
  · next h =>
    have h' : ¬ s.lines.blank = v := h
    simp [State.chainEdge, Lines.set, h']

/-- `SHIFT_BIT` from a low CLK: what it does, in full (42_serial_output_stage R171, R172). -/
theorem State.shiftBit_eq {s : State} (h : s.lines.clk = false) (v : Bool) :
    s.shiftBit v = { s with
      lines := { s.lines with data := v }
      shreg := shiftIn s.chainBits s.shreg v
      pinTrace := ⟨.clk, false⟩ :: ⟨.clk, true⟩ :: (if s.lines.data = v then s.pinTrace else ⟨.data, v⟩ :: s.pinTrace) } := by
  obtain ⟨cfg, faders, bufR, bufG, bufB, lut, ⟨clk, data, lat, blank⟩, err, shreg, latched, responses, pt, inbox, ts⟩ := s
  simp only at h
  subst h
  cases data <;> cases v <;>
    simp [State.shiftBit, State.pin, Lines.get, Lines.set, State.chainEdge, State.chainBits]

/-- `LATCH_PULSE` from a low LAT: what it does, in full (42_serial_output_stage R173, R174). -/
theorem State.latchPulse_eq {s : State} (h : s.lines.lat = false) :
    s.latchPulse = { s with
      latched := s.shreg
      pinTrace := ⟨.lat, false⟩ :: ⟨.lat, true⟩ :: s.pinTrace } := by
  obtain ⟨cfg, faders, bufR, bufG, bufB, lut, ⟨clk, data, lat, blank⟩, err, shreg, latched, responses, pt, inbox, ts⟩ := s
  simp only at h
  subst h
  simp [State.latchPulse, State.pin, Lines.get, Lines.set, State.chainEdge]

/-! ### A stream of bits -/

/-- DATA after a stream of bits. -/
def lastData (data : Bool) (bits : List Bool) : Bool := bits.getLast?.getD data

/-- A register of `bits` bits after a stream. -/
def shiftAll (bits shreg : Nat) (stream : List Bool) : Nat := stream.foldl (shiftIn bits) shreg

/-- A stream read as a number, the first bit most significant. -/
def streamVal (stream : List Bool) : Nat := stream.foldl (fun x v => 2 * x + v.toNat) 0

/-- A stream of `SHIFT_BIT`s from a low CLK: what it does, in full. -/
theorem State.foldl_shiftBit {s : State} (h : s.lines.clk = false) (stream : List Bool) :
    stream.foldl State.shiftBit s = { s with
      lines := { s.lines with data := lastData s.lines.data stream }
      shreg := shiftAll s.chainBits s.shreg stream
      pinTrace := bitEvents s.lines.data stream ++ s.pinTrace } := by
  induction stream generalizing s with
  | nil => rfl
  | cons v rest ih =>
    rw [List.foldl_cons, State.shiftBit_eq h, ih (by simpa using h)]
    have hd : lastData s.lines.data (v :: rest) = lastData v rest := by
      cases rest with
      | nil => rfl
      | cons a l => simp [lastData, List.getLast?_eq_some_getLast]
    simp only [hd, shiftAll, List.foldl_cons, bitEvents, State.chainBits]
    congr 1
    split <;> simp

theorem foldl_shiftIn_eq (bits x : Nat) (stream : List Bool) (hx : x < 2 ^ bits) :
    shiftAll bits x stream = (x * 2 ^ stream.length + streamVal stream) % 2 ^ bits := by
  have key : ∀ (stream : List Bool) (x y : Nat), x = y % 2 ^ bits →
      stream.foldl (shiftIn bits) x = (stream.foldl (fun x v => 2 * x + v.toNat) y) % 2 ^ bits := by
    intro stream
    induction stream with
    | nil => intro x y h; simpa using h
    | cons v rest ih =>
      intro x y h
      simp only [List.foldl_cons]
      apply ih
      subst h
      simp [shiftIn, Nat.add_mod, Nat.mul_mod]
  have lin : ∀ (stream : List Bool) (x : Nat),
      stream.foldl (fun x v => 2 * x + v.toNat) x = x * 2 ^ stream.length + streamVal stream := by
    intro stream
    induction stream with
    | nil => intro x; simp [streamVal]
    | cons v rest ih =>
      intro x
      simp only [List.foldl_cons, List.length_cons, streamVal]
      rw [ih, ih (2 * 0 + v.toNat)]
      ring
  rw [shiftAll, key stream x x (Nat.mod_eq_of_lt hx).symm, lin]

theorem streamVal_append (a b : List Bool) : streamVal (a ++ b) = streamVal a * 2 ^ b.length + streamVal b := by
  induction b using List.reverseRecOn with
  | nil => simp [streamVal]
  | append_singleton l v ih =>
    rw [← List.append_assoc]
    simp only [streamVal, List.foldl_append, List.foldl_cons, List.foldl_nil, List.length_append, List.length_singleton] at ih ⊢
    rw [ih]
    ring

theorem streamVal_lt (stream : List Bool) : streamVal stream < 2 ^ stream.length := by
  induction stream using List.reverseRecOn with
  | nil => simp [streamVal]
  | append_singleton l v ih =>
    have hv : v.toNat ≤ 1 := by cases v <;> simp
    have : streamVal (l ++ [v]) = 2 * streamVal l + v.toNat := by simp [streamVal, List.foldl_append]
    rw [this, List.length_append, List.length_singleton, pow_succ]
    omega

/-- Bit `n - 1 - j` of a stream of `n` bits read as a number is its `j`-th bit. -/
theorem streamVal_testBit (stream : List Bool) (j : Nat) (h : j < stream.length) :
    (streamVal stream).testBit (stream.length - 1 - j) = stream[j] := by
  induction stream using List.reverseRecOn with
  | nil => simp at h
  | append_singleton l v ih =>
    have hs : streamVal (l ++ [v]) = 2 * streamVal l + v.toNat := by simp [streamVal, List.foldl_append]
    rw [hs]
    simp only [List.length_append, List.length_singleton] at h ⊢
    by_cases hj : j < l.length
    · have hv : v.toNat < 2 := by cases v <;> simp
      have h1 : l.length + 1 - 1 - j = (l.length - 1 - j) + 1 := by omega
      rw [h1, Nat.testBit_succ, List.getElem_append_left hj, ← ih hj]
      congr 1
      omega
    · have hj' : j = l.length := by omega
      subst hj'
      simp only [List.getElem_concat_length, Nat.add_sub_cancel, Nat.sub_self]
      cases v <;> simp [Nat.testBit_zero]

/-- A stream of exactly `bits` bits replaces the whole register (42_serial_output_stage R178). -/
theorem shiftAll_full (bits x : Nat) (stream : List Bool) (h : stream.length = bits) (hb : 0 < bits) :
    shiftAll bits x stream = streamVal stream := by
  have hmod : ∀ (stream : List Bool) (x : Nat), stream ≠ [] → shiftAll bits x stream = shiftAll bits (x % 2 ^ bits) stream := by
    intro stream x hne
    cases stream with
    | nil => exact absurd rfl hne
    | cons v rest =>
      simp only [shiftAll, List.foldl_cons]
      congr 1
      simp [shiftIn, Nat.add_mod, Nat.mul_mod]
  have hne : stream ≠ [] := by intro h0; simp [h0] at h; omega
  rw [hmod stream x hne, foldl_shiftIn_eq _ _ _ (Nat.mod_lt _ (Nat.two_pow_pos _)), h,
    Nat.mul_add_mod_of_lt' (h ▸ streamVal_lt stream)]
where
  Nat.mul_add_mod_of_lt' {a b c : Nat} (h : c < b) : (a * b + c) % b = c := by
    rw [Nat.mul_comm, Nat.mul_add_mod, Nat.mod_eq_of_lt h]

theorem eventCount_append (x : Line) (v : Bool) (a b : List PinEvent) :
    (a ++ b).count ⟨x, v⟩ = a.count ⟨x, v⟩ + b.count ⟨x, v⟩ := List.count_append

theorem bitEvents_count_clk (data v : Bool) (stream : List Bool) :
    (bitEvents data stream).count ⟨.clk, v⟩ = stream.length := by
  induction stream generalizing data with
  | nil => rfl
  | cons a rest ih =>
    simp only [bitEvents, List.count_append, ih, List.length_cons]
    cases v <;> cases a <;> cases data <;> simp

theorem bitEvents_count_data (data : Bool) (stream : List Bool) :
    (bitEvents data stream).count ⟨.data, true⟩ + (bitEvents data stream).count ⟨.data, false⟩ ≤ stream.length := by
  induction stream generalizing data with
  | nil => simp [bitEvents]
  | cons a rest ih =>
    have := ih a
    simp only [bitEvents, List.count_append, List.length_cons]
    cases a <;> cases data <;> simp at * <;> omega

theorem bitEvents_lines (data : Bool) (stream : List Bool) :
    ∀ ev ∈ bitEvents data stream, ev.line = .clk ∨ ev.line = .data := by
  induction stream generalizing data with
  | nil => simp [bitEvents]
  | cons a rest ih =>
    intro ev hev
    simp only [bitEvents, List.mem_append, List.mem_cons] at hev
    rcases hev with h | rfl | rfl | h
    · exact ih a ev h
    · exact .inl rfl
    · exact .inl rfl
    · split at h
      · simp at h
      · simp at h; subst h; exact .inr rfl

/-! ### The frame -/

/-- The 36 bits of one LED, in wire order (41_led_driver R145, R146). -/
def State.ledStream (s : State) (p : Nat) : List Bool :=
  msbFirst (s.bufRead .b p) ++ msbFirst (s.bufRead .r p) ++ msbFirst (s.bufRead .g p)

/-- The frame, in wire order (20_memory R62). -/
def State.frameStream (s : State) : List Bool := (List.range s.cfg.nLed).flatMap s.ledStream

theorem msbFirst_length (v : Chan) : (msbFirst v).length = 12 := by simp [msbFirst]

theorem State.ledStream_length (s : State) (p : Nat) : (s.ledStream p).length = 36 := by
  simp [State.ledStream, msbFirst_length]

theorem State.frameStream_length (s : State) : s.frameStream.length = s.chainBits := by
  simp [State.frameStream, List.length_flatMap, State.ledStream_length, State.chainBits, Nat.mul_comm]

/-- Shifting bits out does not touch the buffers. -/
theorem State.bufRead_foldl_shiftBit (s : State) (stream : List Bool) (ch : Channel) (p : Nat) :
    (stream.foldl State.shiftBit s).bufRead ch p = s.bufRead ch p := by
  induction stream generalizing s with
  | nil => rfl
  | cons v rest ih => rw [List.foldl_cons, ih]; exact State.bufRead_congr (by simp) (by simp) (by simp) ch p

theorem State.shiftLed_eq (s : State) (p : Nat) : s.shiftLed p = (s.ledStream p).foldl State.shiftBit s := by
  simp only [State.shiftLed, List.foldl_cons, List.foldl_nil, State.shiftEntry, State.ledStream, List.foldl_append,
    State.bufRead_foldl_shiftBit]

/-- `SHIFT_FRAME` is the stream of the frame's bits. -/
theorem State.shiftFrame_stream (s : State) : s.shiftFrame = s.frameStream.foldl State.shiftBit s := by
  have key : ∀ (ps : List Nat) (t : State), (∀ ch p, t.bufRead ch p = s.bufRead ch p) →
      ps.foldl State.shiftLed t = (ps.flatMap s.ledStream).foldl State.shiftBit t := by
    intro ps
    induction ps with
    | nil => intros; rfl
    | cons p rest ih =>
      intro t ht
      have hs : t.ledStream p = s.ledStream p := by simp only [State.ledStream, ht]
      rw [List.foldl_cons, List.flatMap_cons, List.foldl_append, State.shiftLed_eq, hs]
      exact ih _ fun ch p => by rw [State.bufRead_foldl_shiftBit, ht]
  exact key _ s fun _ _ => rfl

/-! ### What a frame leaves alone, from any line levels -/

@[simp] theorem State.foldl_shiftBit_cfg (stream : List Bool) (s : State) : (stream.foldl State.shiftBit s).cfg = s.cfg := by
  induction stream generalizing s with
  | nil => rfl
  | cons v rest ih => rw [List.foldl_cons, ih, State.shiftBit_cfg]

@[simp] theorem State.foldl_shiftBit_faders (stream : List Bool) (s : State) : (stream.foldl State.shiftBit s).faders = s.faders := by
  induction stream generalizing s with
  | nil => rfl
  | cons v rest ih => rw [List.foldl_cons, ih, State.shiftBit_faders]

@[simp] theorem State.foldl_shiftBit_bufR (stream : List Bool) (s : State) : (stream.foldl State.shiftBit s).bufR = s.bufR := by
  induction stream generalizing s with
  | nil => rfl
  | cons v rest ih => rw [List.foldl_cons, ih, State.shiftBit_bufR]

@[simp] theorem State.foldl_shiftBit_bufG (stream : List Bool) (s : State) : (stream.foldl State.shiftBit s).bufG = s.bufG := by
  induction stream generalizing s with
  | nil => rfl
  | cons v rest ih => rw [List.foldl_cons, ih, State.shiftBit_bufG]

@[simp] theorem State.foldl_shiftBit_bufB (stream : List Bool) (s : State) : (stream.foldl State.shiftBit s).bufB = s.bufB := by
  induction stream generalizing s with
  | nil => rfl
  | cons v rest ih => rw [List.foldl_cons, ih, State.shiftBit_bufB]

@[simp] theorem State.foldl_shiftBit_lastUpdateTime (stream : List Bool) (s : State) : (stream.foldl State.shiftBit s).lastUpdateTime = s.lastUpdateTime := by
  induction stream generalizing s with
  | nil => rfl
  | cons v rest ih => rw [List.foldl_cons, ih, State.shiftBit_lastUpdateTime]

@[simp] theorem State.foldl_shiftBit_err (stream : List Bool) (s : State) : (stream.foldl State.shiftBit s).err = s.err := by
  induction stream generalizing s with
  | nil => rfl
  | cons v rest ih => rw [List.foldl_cons, ih, State.shiftBit_err]

@[simp] theorem State.foldl_shiftBit_responses (stream : List Bool) (s : State) : (stream.foldl State.shiftBit s).responses = s.responses := by
  induction stream generalizing s with
  | nil => rfl
  | cons v rest ih => rw [List.foldl_cons, ih, State.shiftBit_responses]

@[simp] theorem State.foldl_shiftBit_inbox (stream : List Bool) (s : State) : (stream.foldl State.shiftBit s).inbox = s.inbox := by
  induction stream generalizing s with
  | nil => rfl
  | cons v rest ih => rw [List.foldl_cons, ih, State.shiftBit_inbox]

@[simp] theorem State.foldl_shiftBit_timeSeen (stream : List Bool) (s : State) : (stream.foldl State.shiftBit s).timeSeen = s.timeSeen := by
  induction stream generalizing s with
  | nil => rfl
  | cons v rest ih => rw [List.foldl_cons, ih, State.shiftBit_timeSeen]

@[simp] theorem State.sendFrame_cfg (s : State) (now : Time) : (s.sendFrame now).cfg = s.cfg := by
  simp [State.sendFrame, State.shiftFrame_stream]

@[simp] theorem State.sendFrame_faders (s : State) (now : Time) : (s.sendFrame now).faders = s.faders := by
  simp [State.sendFrame, State.shiftFrame_stream]

@[simp] theorem State.sendFrame_bufR (s : State) (now : Time) : (s.sendFrame now).bufR = s.bufR := by
  simp [State.sendFrame, State.shiftFrame_stream]

@[simp] theorem State.sendFrame_bufG (s : State) (now : Time) : (s.sendFrame now).bufG = s.bufG := by
  simp [State.sendFrame, State.shiftFrame_stream]

@[simp] theorem State.sendFrame_bufB (s : State) (now : Time) : (s.sendFrame now).bufB = s.bufB := by
  simp [State.sendFrame, State.shiftFrame_stream]

@[simp] theorem State.sendFrame_lastUpdateTime (s : State) (now : Time) : (s.sendFrame now).lastUpdateTime = now := by
  simp [State.sendFrame, State.shiftFrame_stream]

@[simp] theorem State.sendFrame_err (s : State) (now : Time) : (s.sendFrame now).err = s.err := by
  simp [State.sendFrame, State.shiftFrame_stream]

@[simp] theorem State.sendFrame_responses (s : State) (now : Time) : (s.sendFrame now).responses = s.responses := by
  simp [State.sendFrame, State.shiftFrame_stream]

@[simp] theorem State.sendFrame_inbox (s : State) (now : Time) : (s.sendFrame now).inbox = s.inbox := by
  simp [State.sendFrame, State.shiftFrame_stream]

@[simp] theorem State.sendFrame_timeSeen (s : State) (now : Time) : (s.sendFrame now).timeSeen = s.timeSeen := by
  simp [State.sendFrame, State.shiftFrame_stream]

/-- `SHIFT_FRAME` from a low CLK: what it does, in full. -/
theorem State.shiftFrame_eq {s : State} (h : s.lines.clk = false) :
    s.shiftFrame = { s with
      lines := { s.lines with data := lastData s.lines.data s.frameStream }
      shreg := shiftAll s.chainBits s.shreg s.frameStream
      pinTrace := bitEvents s.lines.data s.frameStream ++ s.pinTrace } := by
  rw [State.shiftFrame_stream, State.foldl_shiftBit h]

theorem Config.nLed_pos (c : Config) : 0 < c.nLed := by
  have := c.valid
  simp only [configOk, Bool.and_eq_true, decide_eq_true_eq] at this
  omega

theorem State.chainBits_pos (s : State) : 0 < s.chainBits := by
  have := Config.nLed_pos s.cfg
  simp [State.chainBits, this]

/-- A frame sent from low CLK and LAT: what it does, in full (41_led_driver R143, 42_serial_output_stage R178). -/
theorem State.sendFrame_eq {s : State} (hc : s.lines.clk = false) (hl : s.lines.lat = false) (now : Time) :
    s.sendFrame now = { s with
      lastUpdateTime := now
      lines := { s.lines with data := lastData s.lines.data s.frameStream }
      shreg := streamVal s.frameStream
      latched := streamVal s.frameStream
      pinTrace := ⟨.lat, false⟩ :: ⟨.lat, true⟩ :: (bitEvents s.lines.data s.frameStream ++ s.pinTrace) } := by
  unfold State.sendFrame
  rw [State.shiftFrame_eq hc, State.latchPulse_eq (by simpa using hl),
    shiftAll_full _ _ _ (State.frameStream_length s) (State.chainBits_pos s)]

/-- The `j`-th bit of one LED's stream. -/
theorem State.ledStream_get (s : State) (p j : Nat) (h : j < 36) :
    (s.ledStream p)[j]'(by rw [State.ledStream_length]; exact h) = s.frameBit (36 * p + j) := by
  have h1 : (36 * p + j) / 36 = p := by omega
  have h2 : (36 * p + j) % 36 = j := by omega
  have h3 : (36 * p + j) % 12 = j % 12 := by omega
  simp only [State.frameBit, h1, h2, h3, State.ledStream, msbFirst]
  by_cases a : j < 12
  · rw [List.getElem_append_left (by simp; omega), List.getElem_append_left (by simpa using a)]
    simp [a, Nat.mod_eq_of_lt a]
  · by_cases b : j < 24
    · rw [List.getElem_append_left (by simp; omega), List.getElem_append_right (by simp; omega)]
      simp only [List.getElem_map, List.getElem_range, List.length_map, List.length_range, if_neg a, if_pos b]
      congr 1; omega
    · rw [List.getElem_append_right (by simp; omega)]
      simp only [List.getElem_map, List.getElem_range, List.length_append, List.length_map, List.length_range, if_neg a, if_neg b]
      congr 1; omega

theorem flatMap_getElem_const {f : Nat → List Bool} {n k : Nat} (hf : ∀ p, (f p).length = k) (p j : Nat) (hp : p < n) (hj : j < k)
    (hlt : k * p + j < ((List.range n).flatMap f).length) :
    ((List.range n).flatMap f)[k * p + j] = (f p)[j]'(by rw [hf]; exact hj) := by
  have len : ∀ m, ((List.range m).flatMap f).length = k * m := by
    intro m; simp [List.length_flatMap, hf, Nat.mul_comm]
  induction n with
  | zero => omega
  | succ n ih =>
    simp only [List.range_succ, List.flatMap_append, List.flatMap_cons, List.flatMap_nil, List.append_nil] at hlt ⊢
    by_cases h : p < n
    · have hb : k * p + j < ((List.range n).flatMap f).length := by
        rw [len]
        calc k * p + j < k * p + k := by omega
          _ = k * (p + 1) := by ring
          _ ≤ k * n := Nat.mul_le_mul_left _ h
      rw [List.getElem_append_left hb, ih h hb]
    · have hpn : p = n := by omega
      subst hpn
      rw [List.getElem_append_right (by rw [len]; omega)]
      simp [len]

/-- The `j`-th bit of the frame is the bit of 20_memory R62. -/
theorem State.frameStream_get (s : State) (j : Nat) (h : j < s.chainBits) :
    s.frameStream[j]'(by rw [State.frameStream_length]; exact h) = s.frameBit j := by
  have hp : j / 36 < s.cfg.nLed := by
    simp only [State.chainBits] at h
    omega
  have hj : j % 36 < 36 := Nat.mod_lt _ (by omega)
  have hd : 36 * (j / 36) + j % 36 = j := by omega
  have := flatMap_getElem_const (f := s.ledStream) (n := s.cfg.nLed) (k := 36) (State.ledStream_length s) (j / 36) (j % 36) hp hj
    (by rw [hd]; exact (State.frameStream_length s).symm ▸ h)
  rw [State.ledStream_get s _ _ hj] at this
  simp only [hd] at this
  exact this

/-- The frame's bits are those of 20_memory R62, in order. -/
theorem State.frameStream_eq (s : State) : s.frameStream = (List.range s.chainBits).map s.frameBit := by
  refine List.ext_getElem (by simp [State.frameStream_length]) fun j h1 h2 => ?_
  rw [State.frameStream_get s j (by rwa [State.frameStream_length] at h1)]
  simp

theorem State.frameEvents_eq (s : State) (data : Bool) : s.frameEvents data = bitEvents data s.frameStream := by
  rw [State.frameEvents, State.frameStream_eq]

/-- Bit `L - 1 - j` of the frame read as a number is bit `j` of the stream (42_serial_output_stage R178). -/
theorem State.frameVal_testBit (s : State) (j : Nat) (h : j < s.chainBits) :
    (streamVal s.frameStream).testBit (s.chainBits - 1 - j) = s.frameBit j := by
  have hl := State.frameStream_length s
  have := streamVal_testBit s.frameStream j (hl.symm ▸ h)
  rw [State.frameStream_get s j h] at this
  rwa [← hl]

theorem State.frameVal_lt (s : State) : streamVal s.frameStream < 2 ^ s.chainBits := by
  have := streamVal_lt s.frameStream
  rwa [State.frameStream_length] at this

/-- DATA after a frame is bit 0 of green of the last LED (42_serial_output_stage R177). -/
theorem State.lastData_frame (s : State) (d : Bool) :
    lastData d s.frameStream = (s.bufRead .g (s.cfg.nLed - 1)).getLsbD 0 := by
  have hpos := Config.nLed_pos s.cfg
  have hl := State.frameStream_length s
  have hL := State.chainBits_pos s
  have hne : s.frameStream ≠ [] := by
    intro h0; rw [h0] at hl; simp at hl; omega
  rw [lastData, List.getLast?_eq_getLast_of_ne_nil hne, Option.getD_some, List.getLast_eq_getElem]
  have hj : s.frameStream.length - 1 < s.chainBits := by omega
  rw [State.frameStream_get s _ hj, hl]
  have h1 : (s.chainBits - 1) % 36 = 35 := by simp only [State.chainBits]; omega
  have h2 : (s.chainBits - 1) / 36 = s.cfg.nLed - 1 := by simp only [State.chainBits]; omega
  have h3 : (s.chainBits - 1) % 12 = 11 := by simp only [State.chainBits]; omega
  simp [State.frameBit, h1, h2, h3]

/-- A latch that holds the frame of `s` shows the buffer entries of `s` (42_serial_output_stage R176, R178). -/
theorem State.latchedColor_of_frame {s t : State} (hb : t.chainBits = s.chainBits)
    (hf : ∀ j, j < s.chainBits → t.latched.testBit (s.chainBits - 1 - j) = s.frameBit j) (p : Nat) (hp : p < s.cfg.nLed) :
    t.latchedColor p = ⟨s.bufRead .r p, s.bufRead .g p, s.bufRead .b p⟩ := by
  have bit : ∀ i, i < 36 → t.latched.testBit (t.chainBits - 36 - 36 * p + i) = s.frameBit (36 * p + (35 - i)) := by
    intro i hi
    have hL : s.chainBits = 36 * s.cfg.nLed := rfl
    rw [← hf _ (by omega), hb]
    congr 1
    omega
  have chan : ∀ (o : Nat) (ch : Channel), (o = 24 ∧ ch = .b) ∨ (o = 12 ∧ ch = .r) ∨ (o = 0 ∧ ch = .g) →
      (BitVec.ofNat 36 (t.latched >>> (t.chainBits - 36 - 36 * p))).extractLsb' o 12 = s.bufRead ch p := by
    intro o ch ho
    apply BitVec.eq_of_getLsbD_eq
    intro i hi
    have hio : o + i < 36 := by omega
    rw [BitVec.getLsbD_extractLsb', BitVec.getLsbD_ofNat]
    simp only [hi, hio, decide_true, Bool.true_and, Nat.testBit_shiftRight]
    rw [bit _ hio]
    have h1 : (36 * p + (35 - (o + i))) / 36 = p := by omega
    have h2 : (36 * p + (35 - (o + i))) % 36 = 35 - (o + i) := by omega
    have h3 : 11 - (36 * p + (35 - (o + i))) % 12 = i := by omega
    simp only [State.frameBit, h1, h2, h3]
    rcases ho with ⟨rfl, rfl⟩ | ⟨rfl, rfl⟩ | ⟨rfl, rfl⟩
    · rw [if_pos (by omega)]
    · rw [if_neg (by omega), if_pos (by omega)]
    · rw [if_neg (by omega), if_neg (by omega)]
  simp only [State.latchedColor, chan 24 .b (by simp), chan 12 .r (by simp), chan 0 .g (by simp)]

end Sys2Proof.Machine
end

