-- ==== Sys2Proof/Laws/Decode.lean ====
section
/-! SUPPORT. The fields of a word put together from its fields (30_encoding R81), and the opcode map's rows. -/

namespace Sys2Proof

/-- A slice that lies in the high part of a concatenation. -/
theorem extract_append_high {m n : Nat} (a : BitVec m) (b : BitVec n) (k len : Nat) (h : n ≤ k) :
    (a ++ b).extractLsb' k len = a.extractLsb' (k - n) len := by
  apply BitVec.eq_of_getLsbD_eq
  intro i hi
  rw [BitVec.getLsbD_extractLsb', BitVec.getLsbD_extractLsb', BitVec.getLsbD_append, if_neg (by omega)]
  have : k + i - n = k - n + i := by omega
  rw [this]

/-- A slice that lies in the low part of a concatenation. -/
theorem extract_append_low {m n : Nat} (a : BitVec m) (b : BitVec n) (k len : Nat) (h : k + len ≤ n) :
    (a ++ b).extractLsb' k len = b.extractLsb' k len := by
  apply BitVec.eq_of_getLsbD_eq
  intro i hi
  rw [BitVec.getLsbD_extractLsb', BitVec.getLsbD_extractLsb', BitVec.getLsbD_append, if_pos (by omega)]

section
variable (op : BitVec 8) (sel : Sel) (now : Time) (c : Color) (fade hold : Dur)

@[simp] theorem packC160_opcode : (packC160 op sel now c fade hold).opcode = op := by
  unfold packC160 Word.opcode
  iterate 8 refine (extract_append_high _ _ _ _ (by decide)).trans ?_
  simp

@[simp] theorem packC160_sel : (packC160 op sel now c fade hold).sel = sel := by
  unfold packC160 Word.sel
  iterate 7 refine (extract_append_high _ _ _ _ (by decide)).trans ?_
  refine (extract_append_low _ _ _ _ (by decide)).trans ?_
  simp

@[simp] theorem packC160_now : (packC160 op sel now c fade hold).now = now := by
  unfold packC160 Word.now
  iterate 6 refine (extract_append_high _ _ _ _ (by decide)).trans ?_
  refine (extract_append_low _ _ _ _ (by decide)).trans ?_
  simp

@[simp] theorem packC160_color : (packC160 op sel now c fade hold).color = c := by
  have hr : (packC160 op sel now c fade hold).extractLsb' 92 12 = c.r := by
    unfold packC160
    iterate 5 refine (extract_append_high _ _ _ _ (by decide)).trans ?_
    refine (extract_append_low _ _ _ _ (by decide)).trans ?_
    simp
  have hg : (packC160 op sel now c fade hold).extractLsb' 80 12 = c.g := by
    unfold packC160
    iterate 4 refine (extract_append_high _ _ _ _ (by decide)).trans ?_
    refine (extract_append_low _ _ _ _ (by decide)).trans ?_
    simp
  have hb : (packC160 op sel now c fade hold).extractLsb' 68 12 = c.b := by
    unfold packC160
    iterate 3 refine (extract_append_high _ _ _ _ (by decide)).trans ?_
    refine (extract_append_low _ _ _ _ (by decide)).trans ?_
    simp
  simp only [Word.color, hr, hg, hb]

@[simp] theorem packC160_fade : (packC160 op sel now c fade hold).fade = fade := by
  unfold packC160 Word.fade
  iterate 2 refine (extract_append_high _ _ _ _ (by decide)).trans ?_
  refine (extract_append_low _ _ _ _ (by decide)).trans ?_
  simp

@[simp] theorem packC160_hold : (packC160 op sel now c fade hold).hold = hold := by
  unfold packC160 Word.hold
  iterate 1 refine (extract_append_high _ _ _ _ (by decide)).trans ?_
  refine (extract_append_low _ _ _ _ (by decide)).trans ?_
  simp

@[simp] theorem packC160_rsvd : (packC160 op sel now c fade hold).rsvd = 0 := by
  unfold packC160 Word.rsvd
  refine (extract_append_low _ _ _ _ (by decide)).trans ?_
  simp

end

/-- Two words with the same fields are the same word (30_encoding R81: the fields fill it). -/
theorem word_ext {w w' : Word} (h0 : w.opcode = w'.opcode) (h1 : w.sel = w'.sel) (h2 : w.now = w'.now) (h3 : w.color = w'.color)
    (h4 : w.fade = w'.fade) (h5 : w.hold = w'.hold) (h6 : w.rsvd = w'.rsvd) : w = w' := by
  have hr := congrArg Lanes.r h3
  have hg := congrArg Lanes.g h3
  have hb := congrArg Lanes.b h3
  have slice : ∀ (lo n : Nat), w.extractLsb' lo n = w'.extractLsb' lo n → ∀ i, lo ≤ i → i < lo + n → w.getLsbD i = w'.getLsbD i := by
    intro lo n h i h1 h2
    have := congrArg (fun v : BitVec n => v.getLsbD (i - lo)) h
    have hlt : i - lo < n := by omega
    have hi : lo + (i - lo) = i := by omega
    simpa [BitVec.getLsbD_extractLsb', hlt, hi] using this
  apply BitVec.eq_of_getLsbD_eq
  intro i hi
  rcases Nat.lt_or_ge i 4 with h | h
  · exact slice 0 4 h6 i (by omega) (by omega)
  rcases Nat.lt_or_ge i 36 with h | h
  · exact slice 4 32 h5 i (by omega) (by omega)
  rcases Nat.lt_or_ge i 68 with h | h
  · exact slice 36 32 h4 i (by omega) (by omega)
  rcases Nat.lt_or_ge i 80 with h | h
  · exact slice 68 12 hb i (by omega) (by omega)
  rcases Nat.lt_or_ge i 92 with h | h
  · exact slice 80 12 hg i (by omega) (by omega)
  rcases Nat.lt_or_ge i 104 with h | h
  · exact slice 92 12 hr i (by omega) (by omega)
  rcases Nat.lt_or_ge i 136 with h | h
  · exact slice 104 32 h2 i (by omega) (by omega)
  rcases Nat.lt_or_ge i 152 with h | h
  · exact slice 136 16 h1 i (by omega) (by omega)
  · exact slice 152 8 h0 i (by omega) (by omega)

/-- The fields of a masked word are the masked fields. -/
theorem extract_and (w m : Word) (lo n : Nat) :
    (w &&& m).extractLsb' lo n = w.extractLsb' lo n &&& m.extractLsb' lo n := by
  apply BitVec.eq_of_getLsbD_eq
  intro i hi
  simp [hi]

/-- What a field mask leaves of a word: the opcode, the reserved nibble, and the fields asked for. -/
theorem and_fieldMask (w : Word) (sel now color durations : Bool) :
    (w &&& fieldMask sel now color durations).opcode = w.opcode ∧
    (w &&& fieldMask sel now color durations).rsvd = w.rsvd ∧
    (w &&& fieldMask sel now color durations).sel = (if sel then w.sel else 0) ∧
    (w &&& fieldMask sel now color durations).now = (if now then w.now else 0) ∧
    (w &&& fieldMask sel now color durations).color = (if color then w.color else black) ∧
    (w &&& fieldMask sel now color durations).fade = (if durations then w.fade else 0) ∧
    (w &&& fieldMask sel now color durations).hold = (if durations then w.hold else 0) := by
  have ones : ∀ {n : Nat} (v : BitVec n), v &&& BitVec.allOnes n = v := fun _ => BitVec.and_allOnes
  have slice : ∀ (lo n : Nat) (v : BitVec n), (fieldMask sel now color durations).extractLsb' lo n = v →
      (w &&& fieldMask sel now color durations).extractLsb' lo n = w.extractLsb' lo n &&& v := by
    intro lo n v h
    rw [extract_and, h]
  have pick : ∀ {n : Nat} (b : Bool) (v : BitVec n), v &&& (if b then BitVec.allOnes n else 0) = if b then v else 0 := by
    intro n b v
    cases b
    · simp
    · simp
  refine ⟨?_, ?_, ?_, ?_, ?_, ?_, ?_⟩
  · exact (slice 152 8 (BitVec.allOnes 8) (by clear * -; revert sel now color durations; decide)).trans (ones _)
  · exact (slice 0 4 (BitVec.allOnes 4) (by clear * -; revert sel now color durations; decide)).trans (ones _)
  · exact (slice 136 16 (if sel then BitVec.allOnes 16 else 0) (by clear * -; revert sel now color durations; decide)).trans (pick _ _)
  · exact (slice 104 32 (if now then BitVec.allOnes 32 else 0) (by clear * -; revert sel now color durations; decide)).trans (pick _ _)
  · have hr := (slice 92 12 (if color then BitVec.allOnes 12 else 0) (by clear * -; revert sel now color durations; decide)).trans (pick _ _)
    have hg := (slice 80 12 (if color then BitVec.allOnes 12 else 0) (by clear * -; revert sel now color durations; decide)).trans (pick _ _)
    have hb := (slice 68 12 (if color then BitVec.allOnes 12 else 0) (by clear * -; revert sel now color durations; decide)).trans (pick _ _)
    simp only [Word.color, hr, hg, hb]
    cases color <;> rfl
  · exact (slice 36 32 (if durations then BitVec.allOnes 32 else 0) (by clear * -; revert sel now color durations; decide)).trans (pick _ _)
  · exact (slice 4 32 (if durations then BitVec.allOnes 32 else 0) (by clear * -; revert sel now color durations; decide)).trans (pick _ _)

/-- The rows of the opcode map (30_encoding R83), by opcode. -/
theorem opcodeMap_find (op : BitVec 8) :
    opcodeMap.find? (fun row => row.opcode == op) =
      if op = 0x01 then some ⟨0x01, fun w => .startFade w.sel w.now w.color w.fade w.hold⟩
      else if op = 0x02 then some ⟨0x02, fun w => .tick w.sel w.now⟩
      else if op = 0x03 then some ⟨0x03, fun w => .feClear w.sel⟩
      else if op = 0x10 then some ⟨0x10, fun w => .write w.sel w.color⟩
      else if op = 0x11 then some ⟨0x11, fun w => .writeAll w.color⟩
      else if op = 0x12 then some ⟨0x12, fun w => .flush w.now⟩
      else if op = 0x13 then some ⟨0x13, fun _ => .blank⟩
      else if op = 0x14 then some ⟨0x14, fun _ => .unblank⟩
      else if op = 0x15 then some ⟨0x15, fun w => .init w.now⟩
      else none := by
  have flip : ∀ k : BitVec 8, (k == op) = decide (op = k) := by
    intro k
    by_cases h : op = k
    · simp [h]
    · simp [h, beq_eq_false_iff_ne.2 (Ne.symm h)]
  simp only [opcodeMap, List.find?_cons, List.find?_nil, flip]
  split_ifs <;> simp_all

/-- What a word that decodes is: `rsvd` zero, its command's opcode, and the command assembled from its fields
(30_encoding R82, R83). -/
theorem decode_ok_iff {w : Word} {i : Instr} :
    decode w = .ok i ↔ w.rsvd = 0 ∧ w.opcode = i.opcode ∧
      i = (match i with
        | .startFade _ _ _ _ _ => .startFade w.sel w.now w.color w.fade w.hold
        | .tick _ _ => .tick w.sel w.now
        | .feClear _ => .feClear w.sel
        | .write _ _ => .write w.sel w.color
        | .writeAll _ => .writeAll w.color
        | .flush _ => .flush w.now
        | .blank => .blank
        | .unblank => .unblank
        | .init _ => .init w.now) := by
  unfold decode
  by_cases hr : w.rsvd = 0
  · rw [if_pos hr, opcodeMap_find]
    simp only [hr, true_and]
    constructor
    · intro h
      split_ifs at h with h1 h2 h3 h4 h5 h6 h7 h8 h9 <;> simp only [Except.ok.injEq] at h <;> subst h <;>
        exact ⟨by assumption, rfl⟩
    · rintro ⟨ho, hi⟩
      cases i <;> simp only [Instr.opcode] at ho <;> rw [ho, hi] <;> rfl
  · rw [if_neg hr]
    exact ⟨fun h => (by cases h), fun h => absurd h.1 hr⟩

end Sys2Proof
end

