-- ==== Sys2Proof/Laws/Fade.lean ====
section
/-! SUPPORT. The interpolator's arithmetic: Q-values, clamp, floored durations, slopes, and a bank's operations. -/

namespace Sys2Proof.Machine

/-! ### Q-values -/

theorem qMax_eq : qMax = 268369920 := by decide

theorem qOf_eq (n : Int) : qOf n = n * 65536 := by simp [qOf, fracW]

theorem clampQ_nonneg (w : Int) : 0 ≤ clampQ w := by
  unfold clampQ
  have := qMax_eq
  split
  · omega
  · split <;> omega

theorem clampQ_le (w : Int) : clampQ w ≤ qMax := by
  unfold clampQ
  have := qMax_eq
  split
  · omega
  · split <;> omega

/-- Between the ends the clamp is the identity (00_scope R13). -/
theorem clampQ_of_mem {w : Int} (h0 : 0 ≤ w) (h1 : w ≤ qMax) : clampQ w = w := by
  unfold clampQ
  rw [if_neg (by omega), if_neg (by omega)]

@[simp] theorem clampQ_clampQ (w : Int) : clampQ (clampQ w) = clampQ w :=
  clampQ_of_mem (clampQ_nonneg w) (clampQ_le w)

theorem accVal_nonneg (q : Acc) : 0 ≤ accVal q := by simp [accVal]

theorem accVal_lt (q : Acc) : accVal q < 2 ^ 28 := by
  have := q.isLt
  simp only [accVal]
  omega

/-- A value that fits is read back as it was stored. -/
theorem accVal_accOf {w : Int} (h0 : 0 ≤ w) (h1 : w < 2 ^ 28) : accVal (accOf w) = w := by
  have : w % 268435456 = w := Int.emod_eq_of_lt h0 (by omega)
  simp [accVal, accOf, BitVec.toNat_ofInt, this, h0]

@[simp] theorem accVal_accOf_clampQ (w : Int) : accVal (accOf (clampQ w)) = clampQ w := by
  have h := clampQ_le w
  have := qMax_eq
  exact accVal_accOf (clampQ_nonneg w) (by omega)

@[simp] theorem accOf_accVal (q : Acc) : accOf (accVal q) = q := by
  apply BitVec.eq_of_toNat_eq
  have h := accVal_accOf (accVal_nonneg q) (accVal_lt q)
  simp only [accVal] at h ⊢
  exact_mod_cast h

theorem chan_le (v : Chan) : (v.toNat : Int) ≤ 4095 := by
  have := v.isLt
  omega

theorem qOf_chan_nonneg (v : Chan) : 0 ≤ qOf v.toNat := by rw [qOf_eq]; positivity

theorem qOf_chan_le (v : Chan) : qOf v.toNat ≤ qMax := by
  have := chan_le v
  rw [qOf_eq, qMax_eq]
  omega

@[simp] theorem accVal_accOfChan (v : Chan) : accVal (accOfChan v) = qOf v.toNat := by
  have h := qOf_chan_le v
  have := qMax_eq
  exact accVal_accOf (qOf_chan_nonneg v) (by omega)

/-- The 12-bit view of an accumulator within `[0, QMAX]` is `floor(q / 2^16)` (00_scope R13, 10_state R24). -/
theorem intPart_val (q : Acc) : ((intPart q).toNat : Int) = accVal q / 65536 := by
  have := q.isLt
  simp only [intPart, fracW, accVal, BitVec.extractLsb'_toNat, Nat.shiftRight_eq_div_pow]
  rw [Nat.mod_eq_of_lt (by omega)]
  rfl

/-! ### Lanes -/

@[simp] theorem Lanes.get_map {α β : Type} (f : α → β) (v : Lanes α) (c : Channel) : (v.map f).get c = f (v.get c) := by
  cases c <;> rfl

@[simp] theorem Lanes.get_map₂ {α β γ : Type} (f : α → β → γ) (v : Lanes α) (w : Lanes β) (c : Channel) :
    (v.map₂ f w).get c = f (v.get c) (w.get c) := by
  cases c <;> rfl

theorem Lanes.ext_get {α : Type} {v w : Lanes α} (h : ∀ c, v.get c = w.get c) : v = w := by
  obtain ⟨a, b, c⟩ := v
  obtain ⟨a', b', c'⟩ := w
  have h1 := h .r
  have h2 := h .g
  have h3 := h .b
  simp only [Lanes.get] at h1 h2 h3
  rw [h1, h2, h3]

theorem accLanes_ext {v w : Lanes Acc} (h : ∀ c, accVal (v.get c) = accVal (w.get c)) : v = w := by
  refine Lanes.ext_get fun c => ?_
  rw [← accOf_accVal (v.get c), h c, accOf_accVal]

/-! ### Durations -/

/-- `D` as an integer (40_fade_engine R114). -/
theorem flooredDur_val (c : Config) (d : Dur) : (flooredDur c d : Int) = max d.toInt c.minDur := by
  simp only [flooredDur, durVal]
  omega

theorem Config.minDur_pos (c : Config) : 1 ≤ c.minDur ∧ c.minDur < 2 ^ 31 := by
  have := c.valid
  simp only [configOk, Bool.and_eq_true, decide_eq_true_eq] at this
  exact this.2

theorem flooredDur_bounds (c : Config) (d : Dur) :
    c.minDur ≤ flooredDur c d ∧ 1 ≤ flooredDur c d ∧ flooredDur c d ≤ 2 ^ 31 - 1 := by
  have h := flooredDur_val c d
  have hm := Config.minDur_pos c
  have hd := BitVec.toInt_lt (x := d)
  simp only [Nat.add_one_sub_one] at hd
  omega

/-! ### Slope -/

theorem tdiv_bounds (a : Int) {b : Int} (hb : 1 ≤ b) :
    |tdiv a b * b| ≤ |a| ∧ |a| - |tdiv a b * b| < b ∧ |tdiv a b| ≤ |a| ∧ (0 ≤ a → 0 ≤ tdiv a b) ∧ (a ≤ 0 → tdiv a b ≤ 0) ∧
      (0 ≤ a → tdiv a b * b ≤ a) ∧ (a ≤ 0 → a ≤ tdiv a b * b) := by
  have pos : ∀ a : Int, 0 ≤ a → 0 ≤ a.tdiv b ∧ a.tdiv b * b ≤ a ∧ a - a.tdiv b * b < b ∧ a.tdiv b ≤ a := by
    intro a ha
    rw [Int.tdiv_eq_ediv_of_nonneg ha]
    have h0 : 0 ≤ a / b := Int.ediv_nonneg ha (by omega)
    have h1 := Int.ediv_mul_le a (b := b) (by omega)
    have h2 := Int.lt_ediv_add_one_mul_self a (b := b) (by omega)
    have h3 : a / b * 1 ≤ a / b * b := mul_le_mul_of_nonneg_left hb h0
    exact ⟨h0, h1, by nlinarith, by omega⟩
  unfold tdiv
  rcases le_total 0 a with h | h
  · obtain ⟨h0, h1, h2, h3⟩ := pos a h
    have hm : 0 ≤ a.tdiv b * b := mul_nonneg h0 (by omega)
    rw [abs_of_nonneg hm, abs_of_nonneg h, abs_of_nonneg h0]
    refine ⟨h1, h2, h3, fun _ => h0, fun ha => ?_, fun _ => h1, fun ha => ?_⟩
    · omega
    · omega
  · obtain ⟨h0, h1, h2, h3⟩ := pos (-a) (by omega)
    rw [Int.neg_tdiv] at h0 h1 h2 h3
    have hm : 0 ≤ -a.tdiv b * b := mul_nonneg h0 (by omega)
    rw [neg_mul] at h1 h2 hm
    rw [abs_of_nonpos (by omega : a.tdiv b * b ≤ 0), abs_of_nonpos h, abs_of_nonpos (by omega : a.tdiv b ≤ 0)]
    refine ⟨h1, by omega, h3, fun ha => ?_, fun _ => by omega, fun ha => ?_, fun _ => by omega⟩
    · omega
    · omega

theorem delta_bounds (target : Chan) (acc : Acc) : |qOf target.toNat - accVal acc| < 2 ^ 28 := by
  have h1 := qOf_chan_nonneg target
  have h2 := qOf_chan_le target
  have h3 := accVal_nonneg acc
  have h4 := accVal_lt acc
  have := qMax_eq
  rw [abs_lt]
  omega

theorem delta_le_qMax (target : Chan) {acc : Acc} (h : accVal acc ≤ qMax) : |qOf target.toNat - accVal acc| ≤ qMax := by
  have h1 := qOf_chan_nonneg target
  have h2 := qOf_chan_le target
  have h3 := accVal_nonneg acc
  rw [abs_le]
  omega

/-- The slope fits its 29 bits and is read back as the truncated quotient (40_fade_engine R115). -/
theorem slopeFor_toInt (d : Nat) (hd : 1 ≤ d) (target : Chan) (acc : Acc) :
    (slopeFor d target acc).toInt = tdiv (qOf target.toNat - accVal acc) d := by
  have h := (tdiv_bounds (qOf target.toNat - accVal acc) (b := d) (by omega)).2.2.1
  have h2 := delta_bounds target acc
  have h3 := abs_le.1 (h.trans h2.le)
  rw [slopeFor, BitVec.toInt_ofInt_eq_self (by omega)]
  · omega
  · have := abs_lt.1 (lt_of_le_of_lt h h2); omega

/-! ### Bank operations -/

@[simp] theorem Fader.clampAcc_acc (f : Fader) (c : Channel) :
    accVal (f.clampAcc.acc.get c) = clampQ (accVal (f.acc.get c)) := by simp [Fader.clampAcc]

/-- The final clamp is the identity on a bank within range (40_fade_engine R112). -/
theorem Fader.clampAcc_of_le {f : Fader} (h : ∀ c, accVal (f.acc.get c) ≤ qMax) : f.clampAcc = f := by
  have : f.clampAcc.acc = f.acc := accLanes_ext fun c => by
    rw [Fader.clampAcc_acc, clampQ_of_mem (accVal_nonneg _) (h c)]
  cases f
  simp only [Fader.clampAcc] at this ⊢
  rw [this]

@[simp] theorem Fader.clampAcc_clampAcc (f : Fader) : f.clampAcc.clampAcc = f.clampAcc :=
  Fader.clampAcc_of_le fun c => by rw [Fader.clampAcc_acc]; exact clampQ_le _

@[simp] theorem Fader.advance_acc (f : Fader) (now : Time) (c : Channel) :
    accVal ((f.advance now).acc.get c) = clampQ (wide (f.elapsed now) (f.acc.get c) (f.slope.get c)) := by
  simp [Fader.advance]

@[simp] theorem Fader.snap_acc (f : Fader) (c : Channel) :
    accVal (f.snap.acc.get c) = qOf (f.target.get c).toNat := by simp [Fader.snap]

theorem Fader.clampAcc_advance (f : Fader) (now : Time) : (f.advance now).clampAcc = f.advance now :=
  Fader.clampAcc_of_le fun c => by rw [Fader.advance_acc]; exact clampQ_le _

theorem Fader.clampAcc_snap (f : Fader) : f.snap.clampAcc = f.snap :=
  Fader.clampAcc_of_le fun c => by rw [Fader.snap_acc]; exact qOf_chan_le _

/-- The phase by the stored fields and the time (10_state R32). -/
theorem Fader.phase_idle {f : Fader} {t : Time} (h : f.active = false) : f.phase t = .idle := by simp [Fader.phase, h]

theorem Fader.phase_fading {f : Fader} {t : Time} (h : f.active = true) (h1 : t < f.fadeEndTime) : f.phase t = .fading := by
  simp [Fader.phase, h, h1]

theorem Fader.phase_holding {f : Fader} {t : Time} (h : f.active = true) (h1 : f.fadeEndTime ≤ t) (h2 : t < f.holdEndTime) :
    f.phase t = .holding := by
  simp [Fader.phase, h, BitVec.not_lt.2 h1, h2]

theorem Fader.phase_expired {f : Fader} {t : Time} (h : f.active = true) (h1 : f.fadeEndTime ≤ t) (h2 : f.holdEndTime ≤ t) :
    f.phase t = .expired := by
  simp [Fader.phase, h, BitVec.not_lt.2 h1, BitVec.not_lt.2 h2]

/-- What a TICK can do to a bank: one of four things (40_fade_engine R112). -/
theorem Fader.tick_cases (f : Fader) (now : Time) :
    (f.active = false ∧ f.tick now = (f.clampAcc, false)) ∨
    (f.active = true ∧ now < f.fadeEndTime ∧
      f.tick now = (f.advance now, decide ((f.advance now).current ≠ f.current))) ∨
    (f.active = true ∧ f.fadeEndTime ≤ now ∧ now < f.holdEndTime ∧ f.tick now = (f.snap, false)) ∨
    (f.active = true ∧ f.fadeEndTime ≤ now ∧ f.holdEndTime ≤ now ∧ f.tick now = (f.retire.clampAcc, false)) := by
  cases h : f.active
  · exact .inl ⟨rfl, by simp [Fader.tick, Fader.phase_idle h]⟩
  · by_cases h1 : now < f.fadeEndTime
    · exact .inr (.inl ⟨rfl, h1, by simp [Fader.tick, Fader.phase_fading h h1, Fader.clampAcc_advance]⟩)
    · have h1' := BitVec.not_lt.1 h1
      by_cases h2 : now < f.holdEndTime
      · exact .inr (.inr (.inl ⟨rfl, h1', h2, by simp [Fader.tick, Fader.phase_holding h h1' h2, Fader.clampAcc_snap]⟩))
      · have h2' := BitVec.not_lt.1 h2
        exact .inr (.inr (.inr ⟨rfl, h1', h2', by simp [Fader.tick, Fader.phase_expired h h1' h2']⟩))

/-- TICK again at the same time changes nothing and answers no change (40_fade_engine R119). -/
theorem Fader.tick_tick (f : Fader) (now : Time) : (f.tick now).1.tick now = ((f.tick now).1, false) := by
  rcases f.tick_cases now with ⟨ha, he⟩ | ⟨ha, h1, he⟩ | ⟨ha, h1, h2, he⟩ | ⟨ha, h1, h2, he⟩ <;> rw [he] <;> simp only
  · rw [Fader.tick, Fader.phase_idle (by exact ha)]
    simp
  · have h0 : (f.advance now).advance now = f.advance now := by
      have : ((f.advance now).advance now).acc = (f.advance now).acc := accLanes_ext fun c => by
        have e : (f.advance now).elapsed now = 0 := by simp [Fader.elapsed, Fader.advance]
        simp only [Fader.advance_acc, wide, e]
        simp
      rw [show (f.advance now).advance now = { f.advance now with acc := ((f.advance now).advance now).acc } from rfl, this]
    rw [Fader.tick, Fader.phase_fading (by exact ha) (by exact h1)]
    simp [h0, Fader.clampAcc_advance]
  · rw [Fader.tick, Fader.phase_holding (by exact ha) (by exact h1) (by exact h2)]
    simp only
    rw [show f.snap.snap = f.snap from rfl, Fader.clampAcc_snap]
  · rw [Fader.tick, Fader.phase_idle rfl]
    simp

/-- The end times of 40_fade_engine R111 as integers. -/
theorem fadeEnd_val (c : Config) (now : Time) (fade : Dur) :
    (fadeEnd c now fade : Int) = now.toNat + max fade.toInt c.minDur + c.minDur := by
  simp only [fadeEnd]
  push_cast
  rw [flooredDur_val]

theorem holdEnd_val (c : Config) (now : Time) (fade hold : Dur) :
    (holdEnd c now fade hold : Int) = now.toNat + max fade.toInt c.minDur + c.minDur + max hold.toInt c.minDur + c.minDur := by
  simp only [holdEnd, fadeEnd]
  push_cast
  rw [flooredDur_val, flooredDur_val]

/-- End times that fit are stored as they are. -/
theorem Fader.start_times {c : Config} {now : Time} {fade hold : Dur} (f : Fader) (target : Color)
    (h : holdEnd c now fade hold ≤ 2 ^ 32 - 1) :
    (f.start c now target fade hold).fadeEndTime.toNat = fadeEnd c now fade ∧
      (f.start c now target fade hold).holdEndTime.toNat = holdEnd c now fade hold := by
  have : fadeEnd c now fade ≤ holdEnd c now fade hold := by simp only [holdEnd]; omega
  simp only [Fader.start, BitVec.toNat_ofNat]
  constructor <;> apply Nat.mod_eq_of_lt <;> omega

/-- The slope START_FADE stores, as an integer (40_fade_engine R115). -/
theorem Fader.start_slope (f : Fader) (c : Config) (now : Time) (target : Color) (fade hold : Dur) (ch : Channel) :
    ((f.start c now target fade hold).slope.get ch).toInt =
      tdiv (qOf (target.get ch).toNat - accVal (f.acc.get ch)) (max fade.toInt c.minDur) := by
  simp only [Fader.start, Lanes.get_map₂]
  rw [slopeFor_toInt _ (flooredDur_bounds c fade).2.1, flooredDur_val]

end Sys2Proof.Machine
end

