-- ==== Sys2Proof/Laws/Exec.lean ====
section
/-! SUPPORT. What a command can do, said once: the shared checks, and `exec` inverted. -/

namespace Sys2Proof.Machine

/-! ### Outcomes -/

@[simp] theorem andThen_next {σ τ : Type} (s : σ) (k : σ → Host.Outcome τ Fault Refusal) : andThen (.next s) k = k s := rfl

/-- A sequence that completes completed at each part. -/
theorem andThen_eq_next {σ τ : Type} {o : Host.Outcome σ Fault Refusal} {k : σ → Host.Outcome τ Fault Refusal} {t : τ} :
    andThen o k = .next t ↔ ∃ s, o = .next s ∧ k s = .next t := by
  cases o <;> simp [andThen]

/-! ### The shared checks -/

theorem onFader_in {sel : Sel} {s : State} {k : Nat → Host.Outcome State Fault Refusal} (h : sel.toNat < s.cfg.p) :
    onFader sel s k = k sel.toNat := by simp [onFader, h]

theorem onFader_out {sel : Sel} {s : State} {k : Nat → Host.Outcome State Fault Refusal} (h : s.cfg.p ≤ sel.toNat) :
    onFader sel s k = .next (s.raise .outOfRange) := by simp [onFader, Nat.not_lt.2 h]

theorem onLed_in {sel : Sel} {s : State} {k : Nat → Host.Outcome State Fault Refusal} (h : sel.toNat < s.cfg.nLed) :
    onLed sel s k = k sel.toNat := by simp [onLed, h]

theorem onLed_out {sel : Sel} {s : State} {k : Nat → Host.Outcome State Fault Refusal} (h : s.cfg.nLed ≤ sel.toNat) :
    onLed sel s k = .next (s.raise .outOfRange) := by simp [onLed, Nat.not_lt.2 h]

theorem onTime_ok {now : Time} {s : State} {k : State → Host.Outcome State Fault Refusal} (h : s.timeSeen ≤ now) :
    onTime now s k = k { s with timeSeen := now } := by simp [onTime, BitVec.not_lt.2 h]

theorem onTime_early {now : Time} {s : State} {k : State → Host.Outcome State Fault Refusal} (h : now < s.timeSeen) :
    onTime now s k = .refused .timeWentBackwards := by simp [onTime, h]

theorem raise_outOfRange (s : State) :
    s.raise .outOfRange = { s with err := s.err ||| 0b01, responses := 0x01 :: s.responses } := rfl

theorem raise_illegalCommand (s : State) :
    s.raise .illegalCommand = { s with err := s.err ||| 0b10, responses := 0x02 :: s.responses } := rfl

/-! ### `exec` inverted -/

/-- The state with a time-carrying command's `now` remembered. -/
def State.seen (s : State) (now : Option Time) : State := { s with timeSeen := now.getD s.timeSeen }

/-- What an accepted command does to the state, its time already remembered. -/
def effect (i : Instr) (s : State) : State :=
  match i with
  | .startFade sel now target fade hold =>
    (s.setFader sel.toNat ((s.fader sel.toNat).start s.cfg now target fade hold)).respond false false
  | .tick sel now =>
    (s.setFader sel.toNat ((s.fader sel.toNat).tick now).1).respond ((s.fader sel.toNat).tick now).2 false
  | .feClear sel => (s.setFader sel.toNat Fader.reset).respond false false
  | .write sel color => (s.bufWriteColor (physIndex s.cfg sel.toNat) color).respond false false
  | .writeAll color => (s.writeAllLeds color).respond false false
  | .flush now => if s.flushDue now then (s.sendFrame now).respond false true else s.respond false false
  | .blank => (s.pin .blank true).respond false false
  | .unblank => (s.pin .blank false).respond false false
  | .init now => ((s.configureAndBlank.sendFrame now).pin .blank false).respond false true

/-- A command out of range raises `OutOfRange`, whatever else holds (60_exceptions R233). -/
theorem exec_out {i : Instr} {s : State} (h : i.wellFormed s.cfg = false) : exec i s = .next (s.raise .outOfRange) := by
  cases i <;> simp [Instr.wellFormed] at h
  · simp only [exec, execStartFade, onFader_out h]
  · simp only [exec, execTick, onFader_out h]
  · simp only [exec, execFeClear, onFader_out h]
  · simp only [exec, execWrite, onLed_out h]

/-- A command in range but earlier than before is refused (00_scope R9). -/
theorem exec_early {i : Instr} {s : State} {now : Time} (hw : i.wellFormed s.cfg = true) (hn : i.now? = some now)
    (h : now < s.timeSeen) : exec i s = .refused .timeWentBackwards := by
  cases i <;> simp [Instr.now?] at hn <;> simp [Instr.wellFormed] at hw <;> subst hn <;>
    simp only [exec, execStartFade, execTick, execFlush, execInit, onFader_in, hw, onTime_early h]

/-- A command in range and in time has its effect, unless it is a START_FADE whose end does not fit (40_fade_engine R111). -/
theorem exec_in_time {i : Instr} {s : State} (hw : i.wellFormed s.cfg = true) (ht : ∀ now, i.now? = some now → s.timeSeen ≤ now) :
    exec i s =
      match i with
      | .startFade _ now _ fade hold =>
        if holdEnd s.cfg now fade hold ≤ 2 ^ 32 - 1 then .next (effect i (s.seen i.now?)) else .refused .endTimeBeyondRange
      | _ => .next (effect i (s.seen i.now?)) := by
  cases i with
  | startFade sel now target fade hold =>
    simp [Instr.wellFormed] at hw
    simp only [exec, execStartFade, onFader_in hw, onTime_ok (ht now rfl)]
    rfl
  | tick sel now =>
    simp [Instr.wellFormed] at hw
    simp only [exec, execTick, onFader_in hw, onTime_ok (ht now rfl)]
    rfl
  | feClear sel =>
    simp [Instr.wellFormed] at hw
    simp only [exec, execFeClear, onFader_in hw]
    rfl
  | write sel color =>
    simp [Instr.wellFormed] at hw
    simp only [exec, execWrite, onLed_in hw]
    rfl
  | writeAll color => rfl
  | flush now =>
    simp only [exec, execFlush, onTime_ok (ht now rfl)]
    exact (apply_ite Host.Outcome.next _ _ _).symm
  | blank => rfl
  | unblank => rfl
  | init now =>
    simp only [exec, execInit, onTime_ok (ht now rfl)]
    rfl

/-- A command inside the spec and in range has its effect. -/
theorem exec_inside {i : Instr} {s : State} (hw : i.wellFormed s.cfg = true) (h : i.InsideSpec s) :
    exec i s = .next (effect i (s.seen i.now?)) := by
  obtain ⟨h1, h2⟩ := h hw
  rw [exec_in_time hw h1]
  cases i <;> simp only
  case startFade sel now target fade hold => rw [if_pos (h2 _ _ _ _ _ rfl)]

/-- `exec` inverted: a command that completes was out of range and changed nothing but `ERR` and the response, or was inside the
spec and had its effect. -/
theorem exec_next_cases {i : Instr} {s t : State} (h : exec i s = .next t) :
    (i.wellFormed s.cfg = false ∧ t = s.raise .outOfRange) ∨
    (i.wellFormed s.cfg = true ∧ i.InsideSpec s ∧ t = effect i (s.seen i.now?)) := by
  cases hw : i.wellFormed s.cfg
  · rw [exec_out hw] at h
    injection h with h
    exact .inl ⟨rfl, h.symm⟩
  · right
    have ht : ∀ now, i.now? = some now → s.timeSeen ≤ now := by
      intro now hn
      by_contra hlt
      rw [exec_early hw hn (BitVec.not_le.1 hlt)] at h
      cases h
    have hs : i.InsideSpec s := by
      refine fun _ => ⟨ht, ?_⟩
      rintro sel now target fade hold rfl
      by_contra hgt
      rw [exec_in_time hw ht] at h
      simp only [if_neg hgt] at h
      cases h
    refine ⟨rfl, hs, ?_⟩
    rw [exec_inside hw hs] at h
    injection h with h
    exact h.symm

/-! ### `step` inverted -/

theorem step_nil {s : State} (h : s.inbox = []) : step s = .next s := by simp [step, takeEvent, h]

theorem step_reset {s : State} {rest : List HostEvent} (h : s.inbox = .reset :: rest) :
    step s = .next (State.applyReset { s with inbox := rest }) := by simp [step, takeEvent, h, runEvent]

theorem step_command {s : State} {w : Word} {rest : List HostEvent} (h : s.inbox = .command w :: rest) :
    step s = runWord w { s with inbox := rest } := by simp [step, takeEvent, h, runEvent]

theorem runWord_ok {w : Word} {i : Instr} (s : State) (h : decode w = .ok i) : runWord w s = exec i s := by simp [runWord, h]

theorem runWord_error {w : Word} {e : Illegal} (s : State) (h : decode w = .error e) :
    runWord w s = .next (s.raise .illegalCommand) := by simp [runWord, h]

/-- `step` inverted: waiting, a reset, an illegal word, or a command run on the state with its word taken. -/
theorem step_cases {s t : State} (h : step s = .next t) :
    (s.inbox = [] ∧ t = s) ∨
    (∃ rest, s.inbox = .reset :: rest ∧ t = State.applyReset { s with inbox := rest }) ∨
    (∃ w rest e, s.inbox = .command w :: rest ∧ decode w = .error e ∧
      t = State.raise { s with inbox := rest } .illegalCommand) ∨
    (∃ w rest i, s.inbox = .command w :: rest ∧ decode w = .ok i ∧ exec i { s with inbox := rest } = .next t) := by
  cases hb : s.inbox with
  | nil =>
    rw [step_nil hb] at h
    injection h with h
    exact .inl ⟨rfl, h.symm⟩
  | cons ev rest =>
    cases ev with
    | reset =>
      rw [step_reset hb] at h
      injection h with h
      exact .inr (.inl ⟨rest, rfl, h.symm⟩)
    | command w =>
      rw [step_command hb] at h
      cases hd : decode w with
      | error e =>
        rw [runWord_error _ hd] at h
        injection h with h
        exact .inr (.inr (.inl ⟨w, rest, e, rfl, hd, h.symm⟩))
      | ok i =>
        rw [runWord_ok _ hd] at h
        exact .inr (.inr (.inr ⟨w, rest, i, rfl, hd, h⟩))

/-! ### Effects on the fields -/

/-- `WRITE_ALL`'s loop touches only the buffers. -/
theorem State.writeAllLeds_eq (s : State) (c : Color) :
    s.writeAllLeds c = { s with
      bufR := (s.writeAllLeds c).bufR, bufG := (s.writeAllLeds c).bufG, bufB := (s.writeAllLeds c).bufB } := by
  have key : ∀ (ls : List Nat) (t : State),
      ls.foldl (fun t li => t.bufWriteColor (physIndex s.cfg li) c) t = { t with
        bufR := (ls.foldl (fun t li => t.bufWriteColor (physIndex s.cfg li) c) t).bufR
        bufG := (ls.foldl (fun t li => t.bufWriteColor (physIndex s.cfg li) c) t).bufG
        bufB := (ls.foldl (fun t li => t.bufWriteColor (physIndex s.cfg li) c) t).bufB } := by
    intro ls
    induction ls with
    | nil => intro t; rfl
    | cons li rest ih => intro t; rw [List.foldl_cons, ih]; simp [State.bufWriteColor, State.bufWrite]
  exact key _ s

theorem Config.translation_perm (c : Config) : c.translation.Perm (List.range c.nLed) := by
  have := c.valid
  simp only [configOk, Bool.and_eq_true, decide_eq_true_eq] at this
  exact List.isPerm_iff.1 this.1.1.2

theorem Config.translation_length (c : Config) : c.translation.length = c.nLed := by
  simpa using (Config.translation_perm c).length_eq

/-- The effective address of a logical index in range (20_memory R61): the translation entry, a physical index in range. -/
theorem physIndex_spec (c : Config) {li : Nat} (h : li < c.nLed) :
    c.translation[li]? = some (physIndex c li) ∧ physIndex c li < c.nLed := by
  have hl : li < c.translation.length := by rw [Config.translation_length]; exact h
  have hg : c.translation[li]? = some (physIndex c li) := by
    simp [physIndex, List.getD_eq_getElem?_getD, List.getElem?_eq_getElem hl]
  refine ⟨hg, ?_⟩
  have hm : physIndex c li ∈ List.range c.nLed := (Config.translation_perm c).mem_iff.1 (List.mem_of_getElem? hg)
  simpa using hm

/-- Every physical index in range is the address of some logical index in range (00_scope R6). -/
theorem physIndex_surj (c : Config) {p : Nat} (h : p < c.nLed) : ∃ li, li < c.nLed ∧ physIndex c li = p := by
  have hm : p ∈ c.translation := (Config.translation_perm c).mem_iff.2 (by simpa using h)
  obtain ⟨li, hl, rfl⟩ := List.getElem_of_mem hm
  refine ⟨li, by rw [← Config.translation_length]; exact hl, ?_⟩
  simp [physIndex, List.getD_eq_getElem?_getD, List.getElem?_eq_getElem hl]

/-- Different logical indices never reach the same entry (20_memory R61). -/
theorem physIndex_inj (c : Config) {a b : Nat} (ha : a < c.nLed) (hb : b < c.nLed) (h : physIndex c a = physIndex c b) : a = b := by
  have hnd : c.translation.Nodup := (Config.translation_perm c).nodup_iff.2 List.nodup_range
  have hla : a < c.translation.length := by rw [Config.translation_length]; exact ha
  have hlb : b < c.translation.length := by rw [Config.translation_length]; exact hb
  simp [physIndex, List.getD_eq_getElem?_getD, List.getElem?_eq_getElem hla, List.getElem?_eq_getElem hlb] at h
  exact (hnd.getElem_inj_iff).1 h

/-- WRITE_ALL reaches every entry in range and no other (41_led_driver R142). -/
theorem State.bufRead_writeAllLeds (s : State) (c : Color) (ch : Channel) (p : Nat) :
    (s.writeAllLeds c).bufRead ch p = if p < s.cfg.nLed then c.get ch else s.bufRead ch p := by
  have key : ∀ (ls : List Nat) (t : State), (∀ li ∈ ls, li < s.cfg.nLed) →
      (ls.foldl (fun t li => t.bufWriteColor (physIndex s.cfg li) c) t).bufRead ch p =
        if ∃ li ∈ ls, physIndex s.cfg li = p then c.get ch else t.bufRead ch p := by
    intro ls
    induction ls with
    | nil => intro t _; simp
    | cons li rest ih =>
      intro t h
      rw [List.foldl_cons, ih _ fun x hx => h x (by simp [hx]), State.bufRead_bufWriteColor]
      by_cases h1 : ∃ x ∈ rest, physIndex s.cfg x = p
      · have h2 : ∃ x ∈ li :: rest, physIndex s.cfg x = p := by
          obtain ⟨x, hx, hp⟩ := h1
          exact ⟨x, by simp [hx], hp⟩
        rw [if_pos h1, if_pos h2]
      · by_cases h3 : p = physIndex s.cfg li
        · rw [if_neg h1, if_pos h3, if_pos ⟨li, by simp, h3.symm⟩]
        · have h2 : ¬ ∃ x ∈ li :: rest, physIndex s.cfg x = p := by
            rintro ⟨x, hx, hp⟩
            rcases List.mem_cons.1 hx with rfl | hx
            · exact h3 hp.symm
            · exact h1 ⟨x, hx, hp⟩
          rw [if_neg h1, if_neg h3, if_neg h2]
  rw [State.writeAllLeds, key _ s (by simp)]
  by_cases h : p < s.cfg.nLed
  · obtain ⟨li, hl, hp⟩ := physIndex_surj s.cfg h
    rw [if_pos h, if_pos ⟨li, by simpa using hl, hp⟩]
  · rw [if_neg h, if_neg]
    rintro ⟨li, hl, rfl⟩
    exact h (physIndex_spec s.cfg (by simpa using hl)).2

/-! ### What a command leaves alone -/

@[simp] theorem State.writeAllLeds_cfg (s : State) (c : Color) : (s.writeAllLeds c).cfg = s.cfg := by rw [State.writeAllLeds_eq]

/-- An accepted command answers one response and leaves the configuration, `ERR`, the host's events and the accepted time
(20_memory R66, 60_exceptions R232). -/
theorem effect_rest (i : Instr) (s : State) :
    (effect i s).cfg = s.cfg ∧ (effect i s).err = s.err ∧ (effect i s).inbox = s.inbox ∧ (effect i s).timeSeen = s.timeSeen ∧
      ∃ r, (effect i s).responses = r :: s.responses := by
  cases i <;> simp only [effect]
  case writeAll c => rw [State.writeAllLeds_eq]; simp
  case flush now => split <;> simp
  all_goals simp

/-- A driver command leaves every bank (41_led_driver R140). -/
theorem effect_faders {i : Instr} (s : State) (h : i.fader? = none) : (effect i s).faders = s.faders := by
  cases i <;> simp [Instr.fader?] at h <;> simp only [effect]
  case writeAll c => rw [State.writeAllLeds_eq]; simp
  case flush now => split <;> simp
  all_goals simp

/-- A fader command leaves every other bank (10_state R22). -/
theorem effect_other_bank {i : Instr} (s : State) {e : Nat} (h : i.fader? ≠ some e) : (effect i s).fader e = s.fader e := by
  cases hf : i.fader? with
  | none => exact State.fader_congr (effect_faders s hf) e
  | some e' =>
    have hne : e ≠ e' := by rintro rfl; exact h hf
    cases i <;> simp [Instr.fader?] at hf <;> simp only [effect] <;> subst hf <;>
      simp [State.fader, Store.read_write, hne]

/-- A fader command leaves the driver (41_led_driver R140). -/
theorem effect_driver {i : Instr} (s : State) (h : i.fader? ≠ none) : s.SameDriver (effect i s) := by
  cases i <;> simp [Instr.fader?] at h <;> simp only [effect] <;>
    exact ⟨fun ch p => State.bufRead_congr rfl rfl rfl ch p, rfl, rfl, rfl, rfl, rfl⟩

/-- Only FLUSH, INIT, BLANK and UNBLANK drive a line (42_serial_output_stage R179). -/
theorem effect_pins {i : Instr} (s : State) (h1 : ∀ now, i ≠ .flush now) (h2 : ∀ now, i ≠ .init now) (h3 : i ≠ .blank)
    (h4 : i ≠ .unblank) : s.SamePins (effect i s) := by
  cases i <;> simp at h1 h2 h3 h4 <;> simp only [effect]
  case writeAll c => rw [State.writeAllLeds_eq]; exact ⟨rfl, rfl, rfl, rfl⟩
  case write sel c => exact ⟨by simp, by simp, by simp, by simp⟩
  all_goals exact ⟨rfl, rfl, rfl, rfl⟩

/-- "configure lines", then "blank", in full (41_led_driver R149): four lines, at most two events, the chain untouched. -/
theorem State.configureAndBlank_eq (s : State) : s.configureAndBlank = { s with
    lines := { clk := false, data := false, lat := false, blank := true }
    pinTrace := (s.configureAndBlank).pinTrace } := by
  obtain ⟨cfg, faders, bufR, bufG, bufB, lut, ⟨clk, data, lat, blank⟩, err, shreg, latched, responses, pt, inbox, ts⟩ := s
  cases clk <;> cases data <;> cases lat <;> cases blank <;> rfl

/-- What INIT appends before its frame, from low CLK and LAT (42_serial_output_stage R179). -/
theorem State.configureAndBlank_trace {s : State} (hc : s.lines.clk = false) (hl : s.lines.lat = false) :
    s.configureAndBlank.pinTrace =
      (if s.lines.blank then [] else [⟨.blank, true⟩]) ++ (if s.lines.data then [⟨.data, false⟩] else []) ++ s.pinTrace := by
  obtain ⟨cfg, faders, bufR, bufG, bufB, lut, ⟨clk, data, lat, blank⟩, err, shreg, latched, responses, pt, inbox, ts⟩ := s
  simp only at hc hl
  subst hc hl
  cases data <;> cases blank <;> rfl

/-- Only the buffers and `N_LED` decide the frame. -/
theorem State.frameStream_congr {s t : State} (hn : t.cfg.nLed = s.cfg.nLed) (hb : s.SameBuffers t) :
    t.frameStream = s.frameStream := by
  have : t.ledStream = s.ledStream := by
    funext p
    simp only [State.ledStream, hb .r p, hb .g p, hb .b p]
  simp only [State.frameStream, hn, this]

/-- INIT's own work in full, from any line levels (41_led_driver R149). -/
theorem State.init_eq (s : State) (now : Time) :
    (s.configureAndBlank.sendFrame now).pin .blank false = { s with
      lastUpdateTime := now
      lines := { clk := false, data := (s.bufRead .g (s.cfg.nLed - 1)).getLsbD 0, lat := false, blank := false }
      shreg := streamVal s.frameStream
      latched := streamVal s.frameStream
      pinTrace := ⟨.blank, false⟩ :: ⟨.lat, false⟩ :: ⟨.lat, true⟩ ::
        (bitEvents false s.frameStream ++ s.configureAndBlank.pinTrace) } := by
  have hf : s.configureAndBlank.frameStream = s.frameStream :=
    State.frameStream_congr (by simp) fun ch p => State.bufRead_congr (by simp) (by simp) (by simp) ch p
  have hc : s.configureAndBlank.lines = { clk := false, data := false, lat := false, blank := true } := by
    rw [State.configureAndBlank_eq]
  rw [State.pin_blank_eq, State.sendFrame_eq (by rw [hc]) (by rw [hc]), hf, State.lastData_frame, hc]
  conv_lhs => rw [State.configureAndBlank_eq]
  simp

/-- A performed FLUSH's own work in full, from low CLK and LAT (41_led_driver R143). -/
theorem State.flush_eq {s : State} (hc : s.lines.clk = false) (hl : s.lines.lat = false) (now : Time) :
    s.sendFrame now = { s with
      lastUpdateTime := now
      lines := { s.lines with data := (s.bufRead .g (s.cfg.nLed - 1)).getLsbD 0 }
      shreg := streamVal s.frameStream
      latched := streamVal s.frameStream
      pinTrace := ⟨.lat, false⟩ :: ⟨.lat, true⟩ :: (bitEvents s.lines.data s.frameStream ++ s.pinTrace) } := by
  rw [State.sendFrame_eq hc hl, State.lastData_frame]

/-- A chain that holds the number of the frame holds the frame (42_serial_output_stage R178). -/
theorem State.holdsFrame_of_eq {s t : State} (h1 : t.shreg = streamVal s.frameStream) (h2 : t.latched = streamVal s.frameStream) :
    t.HoldsFrame s :=
  ⟨h1.trans h2.symm, h2 ▸ State.frameVal_lt s, fun j hj => h2 ▸ State.frameVal_testBit s j hj⟩

/-! ### The time-carrying commands, in range and in time -/

theorem exec_startFade_ok {s : State} {sel : Sel} {now : Time} {target : Color} {fade hold : Dur} (h : sel.toNat < s.cfg.p)
    (ht : s.timeSeen ≤ now) (he : holdEnd s.cfg now fade hold ≤ 2 ^ 32 - 1) :
    exec (.startFade sel now target fade hold) s = .next (effect (.startFade sel now target fade hold) (s.seen (some now))) := by
  refine exec_inside (i := .startFade sel now target fade hold) (by simpa [Instr.wellFormed] using h) fun _ => ⟨?_, ?_⟩
  · rintro n ⟨⟩
    exact ht
  · rintro _ _ _ _ _ ⟨⟩
    exact he

theorem exec_tick_ok {s : State} {sel : Sel} {now : Time} (h : sel.toNat < s.cfg.p) (ht : s.timeSeen ≤ now) :
    exec (.tick sel now) s = .next (effect (.tick sel now) (s.seen (some now))) := by
  refine exec_inside (i := .tick sel now) (by simpa [Instr.wellFormed] using h) fun _ => ⟨?_, ?_⟩
  · rintro n ⟨⟩
    exact ht
  · rintro _ _ _ _ _ ⟨⟩

theorem exec_flush_ok {s : State} {now : Time} (ht : s.timeSeen ≤ now) :
    exec (.flush now) s = .next (effect (.flush now) (s.seen (some now))) := by
  refine exec_inside (i := .flush now) rfl fun _ => ⟨?_, ?_⟩
  · rintro n ⟨⟩
    exact ht
  · rintro _ _ _ _ _ ⟨⟩

theorem exec_init_ok {s : State} {now : Time} (ht : s.timeSeen ≤ now) :
    exec (.init now) s = .next (effect (.init now) (s.seen (some now))) := by
  refine exec_inside (i := .init now) rfl fun _ => ⟨?_, ?_⟩
  · rintro n ⟨⟩
    exact ht
  · rintro _ _ _ _ _ ⟨⟩

/-- The bank START_FADE leaves. -/
theorem effect_startFade_fader (s : State) (sel : Sel) (now : Time) (target : Color) (fade hold : Dur) (n : Option Time) :
    (effect (.startFade sel now target fade hold) (s.seen n)).fader sel.toNat =
      (s.fader sel.toNat).start s.cfg now target fade hold := by
  have := State.fader_setFader (s.seen n) sel.toNat sel.toNat ((s.fader sel.toNat).start s.cfg now target fade hold)
  rw [if_pos rfl] at this
  exact this

/-- The bank TICK leaves. -/
theorem effect_tick_fader (s : State) (sel : Sel) (now : Time) (n : Option Time) :
    (effect (.tick sel now) (s.seen n)).fader sel.toNat = ((s.fader sel.toNat).tick now).1 := by
  have := State.fader_setFader (s.seen n) sel.toNat sel.toNat ((s.fader sel.toNat).tick now).1
  rw [if_pos rfl] at this
  exact this

/-- The throttle test on the numbers (41_led_driver R144). -/
theorem flushDue_seen_iff (s : State) (now : Time) (n : Option Time) :
    (s.seen n).flushDue now = true ↔ s.lastUpdateTime.toNat + s.cfg.minUpdateInterval ≤ now.toNat := by
  simp only [State.flushDue, State.seen]
  exact decide_eq_true_iff

/-- The four response words without an error (30_encoding R90). -/
theorem responseWord_ok : responseWord false false 0 = 0x00 ∧ responseWord true false 0 = 0x04 ∧
    responseWord false true 0 = 0x08 := by decide

end Sys2Proof.Machine
end

