-- ==== Sys2Proof/Laws/PerInstr.lean ====
section
/-! SUPPORT. A family of facts about every command, one lemma per constructor. -/

namespace Sys2Proof.Laws.EncodedFields

/-- The encoder writes the command's opcode and a zero reserved nibble (30_encoding R83, R85). -/
def Statement (i : Instr) : Prop := (encode i).opcode = i.opcode ∧ (encode i).rsvd = 0

theorem startFade (sel : Sel) (now : Time) (target : Color) (fade hold : Dur) : Statement (.startFade sel now target fade hold) :=
  ⟨packC160_opcode .., packC160_rsvd ..⟩

theorem tick (sel : Sel) (now : Time) : Statement (.tick sel now) := ⟨packC160_opcode .., packC160_rsvd ..⟩

theorem feClear (sel : Sel) : Statement (.feClear sel) := ⟨packC160_opcode .., packC160_rsvd ..⟩

theorem write (sel : Sel) (color : Color) : Statement (.write sel color) := ⟨packC160_opcode .., packC160_rsvd ..⟩

theorem writeAll (color : Color) : Statement (.writeAll color) := ⟨packC160_opcode .., packC160_rsvd ..⟩

theorem flush (now : Time) : Statement (.flush now) := ⟨packC160_opcode .., packC160_rsvd ..⟩

theorem blank : Statement .blank := ⟨packC160_opcode .., packC160_rsvd ..⟩

theorem unblank : Statement .unblank := ⟨packC160_opcode .., packC160_rsvd ..⟩

theorem init (now : Time) : Statement (.init now) := ⟨packC160_opcode .., packC160_rsvd ..⟩

end Sys2Proof.Laws.EncodedFields
end

