-- ==== Sys2Proof/Laws/Sequencer.lean ====
section
/-! SUPPORT. The host sequencer's small parts: engine indices, padded colours, the chaser's cursor. -/

namespace Sys2Proof.Machine

/-- A fader index is read back from its `sel` operand: `P <= N_LED <= 65536` (00_scope R5). -/
theorem selOf_toNat {c : Config} {e : Nat} (h : e < c.p) : (selOf e).toNat = e := by
  have hv := c.valid
  simp only [configOk, Bool.and_eq_true, decide_eq_true_eq] at hv
  simp only [selOf, BitVec.toNat_ofNat]
  apply Nat.mod_eq_of_lt
  omega

/-- Truncated and padded colours (48_host_sequencer R194). -/
theorem padColors_getD (n : Nat) (cs : List Color) (k : Nat) :
    (padColors n cs).getD k black = if k < n then cs.getD k black else black := by
  simp only [padColors, List.getD_eq_getElem?_getD, List.getElem?_map]
  split
  · next h => simp [h]
  · next h => rw [List.getElem?_eq_none (by simpa using h)]; simp

theorem cursorMinus_lt {position i m : Nat} (hm : 0 < m) : cursorMinus position i m < m := by
  have h1 := Int.emod_lt_of_pos ((position : Int) - i) (by omega : (0 : Int) < m)
  have h2 := Int.emod_nonneg ((position : Int) - i) (by omega : (m : Int) ≠ 0)
  unfold cursorMinus
  omega

/-- `i ↦ (position - i) mod m` undoes itself, so the chaser aims each engine once (48_host_sequencer R197). -/
theorem cursorMinus_cursorMinus {position i m : Nat} (hm : 0 < m) (hi : i < m) :
    cursorMinus position (cursorMinus position i m) m = i := by
  have h1 := Int.emod_nonneg ((position : Int) - i) (by omega : (m : Int) ≠ 0)
  unfold cursorMinus
  rw [Int.toNat_of_nonneg h1, Int.sub_emod, Int.emod_emod_of_dvd _ (dvd_refl _), ← Int.sub_emod]
  have : (position : Int) - (position - i) = i := by ring
  rw [this, Int.emod_eq_of_lt (by omega) (by omega)]
  rfl

theorem cursorMinus_mod (position i m : Nat) : cursorMinus (position % m) i m = cursorMinus position i m := by
  unfold cursorMinus
  congr 1
  push_cast
  exact Int.emod_sub_emod ..

end Sys2Proof.Machine
end

