-- ==== Sys2Proof/Tests/Slice0.lean ====
section
/-! SUPPORT. The model's own tests, expected values from 95_test_vectors and the encoding tables of 30_encoding, and a witness for
the hypotheses of each statement. -/

namespace Sys2Proof.Tests

open Sys2Proof.Machine

/-! ### Helpers -/

/-- The next state has a property. -/
def lands (o : Host.Outcome State Fault Refusal) (p : State → Bool) : Bool :=
  match o with
  | .next t => p t
  | .fault _ => false
  | .refused _ => false

/-- The machine refuses for a reason. -/
def stops (o : Host.Outcome State Fault Refusal) (r : Refusal) : Bool :=
  match o with
  | .next _ => false
  | .fault _ => false
  | .refused q => decide (q = r)

/-- A state under a configuration with these faders. -/
def withFaders (c : Config) (fs : Store Fader) (t : Time) : State :=
  { State.powerOn c 0 0 with faders := fs, timeSeen := t }

/-- `MIN_DUR = 5` (95 V4). -/
def slowFloor : Config :=
  { nLed := 4, p := 4, translation := [2, 0, 3, 1], minUpdateInterval := 10, minDur := 5, valid := by decide }

/-- One LED, one fader (95 V8). -/
def oneLed : Config :=
  { nLed := 1, p := 1, translation := [0], minUpdateInterval := 10, minDur := 1, valid := by decide }

/-- Fader 0 of 95 V1, just started. -/
def v1Fader : Fader :=
  { acc := ⟨0, 0, 0⟩, target := ⟨4095, 2048, 1⟩, slope := ⟨268369, 134217, 65⟩, fadeEndTime := 2001, holdEndTime := 2502,
    lastTickTime := 1000, active := true }

/-- 95 V1 after its START_FADE. -/
def v1State : State := withFaders Config.reference [(0, v1Fader)] 1000

/-- A reset block with its line released and a command word presented. -/
def presented (w : Word) : State := { State.reset with inbox := [.command w] }

/-! ### Well-formedness: an ill-formed term for each check (30_encoding R88 (3), 00_scope R5, R6) -/

theorem test_startFade_sel_out : (Instr.startFade 4 0 black 0 0).wellFormed Config.reference = false := by decide
theorem test_tick_sel_out : (Instr.tick 4 0).wellFormed Config.reference = false := by decide
theorem test_feClear_sel_out : (Instr.feClear 65535).wellFormed Config.reference = false := by decide
theorem test_write_sel_out : (Instr.write 4 black).wellFormed Config.reference = false := by decide
theorem test_last_sel_in : (Instr.tick 3 0).wellFormed Config.reference = true ∧
    (Instr.write 3 black).wellFormed Config.reference = true := by decide
theorem test_not_a_permutation : configOk 4 4 [2, 0, 2, 1] 10 1 = false := by decide
theorem test_more_faders_than_leds : configOk 4 5 [2, 0, 3, 1] 10 1 = false := by decide
theorem test_no_leds : configOk 0 0 [] 10 1 = false := by decide
theorem test_no_floor : configOk 4 4 [2, 0, 3, 1] 10 0 = false := by decide
theorem test_floor_too_large : configOk 4 4 [2, 0, 3, 1] 10 (2 ^ 31) = false := by decide
theorem test_interval_too_large : configOk 4 4 [2, 0, 3, 1] (2 ^ 32) 1 = false := by decide

/-! ### Decoding: words of 95_test_vectors, and one built field by field from 30_encoding R81 -/

theorem test_decode_startFade : decode 0x010001000003e8fff800001000003e8000001f40 = .ok (.startFade 1 1000 ⟨4095, 2048, 1⟩ 1000 500) := by
  decide
theorem test_decode_negative_hold : decode 0x0100000000006400a01401e00000000fffffffb0 = .ok (.startFade 0 100 ⟨10, 20, 30⟩ 0 (-5)) := by
  decide
theorem test_decode_tick : decode 0x020001000005dc00000000000000000000000000 = .ok (.tick 1 1500) := by decide
theorem test_decode_feClear : decode 0x0300020000000000000000000000000000000000 = .ok (.feClear 2) := by decide
theorem test_decode_write : decode 0x10000000000000abc123fff00000000000000000 = .ok (.write 0 ⟨0xABC, 0x123, 0xFFF⟩) := by decide
theorem test_decode_writeAll : decode 0x110000000000007ff3ff00000000000000000000 = .ok (.writeAll ⟨2047, 1023, 0⟩) := by decide
theorem test_decode_flush : decode 0x1200000000001400000000000000000000000000 = .ok (.flush 20) := by decide
theorem test_decode_blank : decode 0x1300000000000000000000000000000000000000 = .ok .blank := by decide
theorem test_decode_unblank : decode 0x1400000000000000000000000000000000000000 = .ok .unblank := by decide
theorem test_decode_init : decode 0x1500000000003200000000000000000000000000 = .ok (.init 50) := by decide
/-- Field by field, high bit first: opcode 01, `sel` 8001, `now` 80000001, r 801, g 402, b 204, `fade` 80000003, `hold` C0000005,
`rsvd` 0. -/
theorem test_decode_every_field :
    decode (0b00000001_1000000000000001_10000000000000000000000000000001_100000000001_010000000010_001000000100_10000000000000000000000000000011_11000000000000000000000000000101_0000) =
      .ok (.startFade 0x8001 0x80000001 ⟨0x801, 0x402, 0x204⟩ 0x80000003 0xC0000005) := by decide
theorem test_ignored_sel : decode 0x1100040000000000100100100000000000000000 = .ok (.writeAll ⟨1, 1, 1⟩) := by decide
theorem test_undefined_opcodes : decode 0 = .error .undefinedOpcode ∧
    decode 0x1600000000000000000000000000000000000000 = .error .undefinedOpcode := by decide
theorem test_reserved_bits : decode 0x1300000000000000000000000000000000000001 = .error .reservedBitsSet := by decide
theorem test_encode_negative : encode (.startFade 0 100 ⟨10, 20, 30⟩ 0 (-5)) = 0x0100000000006400a01401e00000000fffffffb0 := by decide

/-! ### START_FADE -/

/-- 95 V1. -/
theorem test_startFade_v1 :
    lands (exec (.startFade 0 1000 ⟨4095, 2048, 1⟩ 1000 500) State.reset)
      (fun t => t.faders == [(0, v1Fader)] && t.responses == [0x00]) = true := by decide
/-- 95 V2: a downward fade, quotients truncated toward zero. -/
theorem test_startFade_v2 :
    lands (exec (.startFade 0 50 black 3 2)
        (withFaders Config.reference [(0, { Fader.reset with acc := ⟨0xFFF0000, 0x640000, 0x70000⟩ })] 0))
      (fun t => (t.fader 0).slope == ⟨-89456640, -2184533, -152917⟩ && (t.fader 0).fadeEndTime == 54 &&
        (t.fader 0).holdEndTime == 57 && t.current 0 == ⟨4095, 100, 7⟩) = true := by decide

/-! ### TICK -/

/-- 95 V4b, TICK 9: the lower clamp with `MIN_DUR = 5`. -/
theorem test_tick_v4b_clamp :
    lands (exec (.tick 0 9) (withFaders slowFloor
        [(0, { acc := ⟨20 * 65536, 4019 * 65536, 0⟩, target := ⟨0, 4000, 0⟩, slope := ⟨-1310720, -1245184, 0⟩, fadeEndTime := 10,
               holdEndTime := 20, lastTickTime := 4, active := true })] 4))
      (fun t => (t.fader 0).acc == ⟨0, 0xF540000, 0⟩ && t.current 0 == ⟨0, 3924, 0⟩ && t.responses == [0x04]) = true := by decide
/-- 95 V1, the snap at 2001 answers no change. -/
theorem test_tick_v1_snap :
    lands (exec (.tick 0 2001) (withFaders Config.reference
        [(0, { v1Fader with acc := ⟨0xFFEFC68, 0x7FFFD28, 0xFDE8⟩, lastTickTime := 2000 })] 2000))
      (fun t => t.current 0 == ⟨4095, 2048, 1⟩ && (t.fader 0).lastTickTime == 2000 && t.active 0 && t.responses == [0x00]) = true := by
  decide

/-! ### FE_CLEAR -/

theorem test_feClear : lands (exec (.feClear 0) v1State) (fun t => t.faders == [] && t.responses == [0x00]) = true := by decide

/-! ### WRITE, WRITE_ALL -/

/-- 95 V9: logical 0 is physical 2. -/
theorem test_write_v9 :
    lands (exec (.write 0 ⟨0xABC, 0x123, 0xFFF⟩) State.reset)
      (fun t => t.bufR == [(2, 0xABC)] && t.bufG == [(2, 0x123)] && t.bufB == [(2, 0xFFF)] && t.responses == [0x00]) = true := by decide
/-- 95 V10, first row. -/
theorem test_write_v10 :
    lands (step (presented 0x1000040000000000100100100000000000000000))
      (fun t => t == { State.reset with err := 0b01, responses := [0x01] }) = true := by decide
/-- 95 V10, seventh row: `sel` is ignored. -/
theorem test_writeAll_v10 :
    lands (step (presented 0x1100040000000000100100100000000000000000))
      (fun t => t.bufR == [(0, 1), (1, 1), (2, 1), (3, 1)] && t.bufG == t.bufR && t.bufB == t.bufR && t.responses == [0x00]) = true := by
  decide

/-! ### FLUSH, INIT -/

/-- A trace from its letters: `D` DATA, `C` CLK, `L` LAT, with the new level. -/
def d0 : PinEvent := ⟨.data, false⟩
def d1 : PinEvent := ⟨.data, true⟩
def c0 : PinEvent := ⟨.clk, false⟩
def c1 : PinEvent := ⟨.clk, true⟩
def l0 : PinEvent := ⟨.lat, false⟩
def l1 : PinEvent := ⟨.lat, true⟩

set_option maxRecDepth 40000 in
/-- 95 V8: one frame on the wire, bit by bit. -/
theorem test_flush_v8 :
    lands (exec (.flush 20) { State.powerOn oneLed 0 0 with
        bufR := [(0, 0x801)], bufG := [(0, 0x002)], bufB := [(0, 0xC00)], lines := ⟨false, false, false, false⟩ })
      (fun t => t.shreg == 0xC00801002 && t.latched == 0xC00801002 && t.latchedColor 0 == ⟨0x801, 0x002, 0xC00⟩ &&
        t.lastUpdateTime == 20 && t.responses == [0x08] && t.pinTrace.reverse ==
          [d1, c1, c0, c1, c0, d0, c1, c0, c1, c0, c1, c0, c1, c0, c1, c0, c1, c0, c1, c0, c1, c0, c1, c0, c1, c0] ++
          [d1, c1, c0, d0, c1, c0, c1, c0, c1, c0, c1, c0, c1, c0, c1, c0, c1, c0, c1, c0, c1, c0, c1, c0, d1, c1, c0] ++
          [d0, c1, c0, c1, c0, c1, c0, c1, c0, c1, c0, c1, c0, c1, c0, c1, c0, c1, c0, c1, c0, d1, c1, c0, d0, c1, c0] ++
          [l1, l0]) = true := by decide
set_option maxRecDepth 40000 in
/-- 95 P1 command 6, from its own buffers: the frame in the chain and its event counts. -/
theorem test_flush_p1_frame :
    lands (exec (.flush 10) { State.reset with
        bufR := [(0, 1), (1, 0x800), (2, 0xABC)], bufG := [(0, 2), (2, 0x123)], bufB := [(0, 3), (1, 1), (2, 0xFFF)] })
      (fun t => t.shreg == 0x003001002001800000fffabc123000000000 && t.latched == t.shreg &&
        eventCount .data true t.pinTrace + eventCount .data false t.pinTrace == 22 && t.pinTrace.length == 22 + 288 + 2) = true := by
  decide
set_option maxRecDepth 40000 in
/-- 95 P1 command 1: INIT from reset sends 144 zero bits and unblanks, 291 events. -/
theorem test_init_p1 :
    lands (step (presented 0x1500000000000000000000000000000000000000))
      (fun t => t.pinTrace.length == 291 && t.pinTrace.take 3 == [⟨.blank, false⟩, l0, l1] && eventCount .clk true t.pinTrace == 144 &&
        t.blanked == false && t.responses == [0x08]) = true := by decide
set_option maxRecDepth 40000 in
/-- 42_serial_output_stage R172, R175: whatever the chain held, INIT of black buffers shows black. -/
theorem test_init_forgets_chain :
    lands (exec (.init 3) { State.reset with shreg := 0xFFFFFFFFF, latched := 0x123456789, lines := ⟨false, true, false, false⟩ })
      (fun t => t.latched == 0 && t.ledOut 3 == black && t.lastUpdateTime == 3 && t.lines == ⟨false, false, false, false⟩) = true := by
  decide

/-! ### BLANK, UNBLANK -/

/-- 95 P3 command 6. -/
theorem test_blank_p3 :
    lands (exec .blank { State.reset with lines := ⟨false, false, false, false⟩, latched := 0x12c0640c812c0640c812c0640c812c0640c8 })
      (fun t => t.pinTrace == [⟨.blank, true⟩] && t.ledOut 0 == black && t.latchedColor 3 == ⟨100, 200, 300⟩) = true := by decide
/-- 95 P3 command 8. -/
theorem test_unblank_p3 :
    lands (exec .unblank { State.reset with latched := 0x001001001001001001001001001001001001 })
      (fun t => t.pinTrace == [⟨.blank, false⟩] && t.ledOut 0 == ⟨1, 1, 1⟩ && t.ledOut 3 == ⟨1, 1, 1⟩) = true := by decide
theorem test_blank_again : lands (exec .blank State.reset) (fun t => t.pinTrace == []) = true := by decide

/-! ### Refused traces (93 U1, U2, U5), errors, the host's questions -/

/-- An earlier `now` out of range is an error, not a refusal: 95 V10's third row. -/
theorem test_error_before_time : lands (exec (.tick 4 7) v1State) (fun t => t == v1State.raise .outOfRange) = true := by decide
theorem test_empty_colours :
    (match HostSystem.changePattern .fader 0 0 (some [])
        { seq := Sequencer.blankSlate ⟨4, .fader, 0, 0, true, by decide⟩, block := State.reset } with
      | .refused r => decide (r = .emptyColorList)
      | _ => false) = true := by decide
theorem test_illegal_wins :
    lands (step (presented 0x1600040000000000000000000000000000000001))
      (fun t => t == { State.reset with err := 0b10, responses := [0x02] }) = true := by decide
theorem test_table_word : decodeTableWord 160 0x1300000000000000000000000000000000000000 = some .blank := by decide
theorem test_fetch_word :
    lands (step (State.reset.withFetchWord 160 0x1400000000000000000000000000000000000000))
      (fun t => t == { State.reset with lines := ⟨false, false, false, false⟩, pinTrace := [⟨.blank, false⟩], responses := [0x00] }) = true := by
  decide

/-! ### Witnesses: states and operands that meet the hypotheses of each statement -/

/-- An outcome that lands in a state is that state's outcome. -/
theorem eq_next_of_lands {o : Host.Outcome State Fault Refusal} {p : State → Bool} (h : lands o p = true) :
    ∃ t, o = .next t ∧ p t = true := by
  cases o with
  | next t => exact ⟨t, rfl, h⟩
  | fault r => cases h
  | refused r => cases h

/-- Every bank but the first is at its reset values in a state that lists only bank 0. -/
theorem fader_single (c : Config) (f : Fader) (n : Time) (e : Nat) :
    (withFaders c [(0, f)] n).fader e = if e = 0 then f else Fader.reset := by
  by_cases h : e = 0
  · subst h
    rfl
  · have h0 : ¬ 0 = e := fun h' => h h'.symm
    simp [State.fader, withFaders, Store.read, h, h0]

theorem fader_reset_inv (n : Time) : Fader.reset.Inv n := by
  refine ⟨?_, ?_, .inl ⟨rfl, rfl, rfl, rfl⟩, ?_⟩ <;> intro c <;> cases c <;> decide

theorem v1Fader_inv : v1Fader.Inv 1000 := by
  refine ⟨?_, ?_, .inr (by decide), ?_⟩
  · intro c
    cases c <;> decide
  · intro c
    cases c <;> simp [v1Fader, Lanes.get, qMax_eq]
  · intro c
    cases c <;> simp [v1Fader, Lanes.get, qMax_eq]

/-- A state in the middle of a fade that meets the invariant. -/
theorem v1State_inv : v1State.Inv := by
  refine ⟨by decide, by decide, by intro ch; cases ch <;> rfl, by intro ch; cases ch <;> rfl, fun e => ?_, rfl, rfl, by decide, by decide,
    by decide⟩
  rw [v1State, fader_single]
  split
  · exact v1Fader_inv
  · exact fader_reset_inv _

theorem v1State_onCourse : v1State.OnCourse := by
  intro e ha _ c
  rw [v1State, fader_single] at ha ⊢
  split at ha
  · next he =>
    rw [if_pos he]
    cases c <;> exact .inl (by decide)
  · exact absurd ha (by decide)

/-- Each opcode of the nine command statements has words with `rsvd` zero, here with every other bit set. -/
theorem witness_ReadsAs :
    ([0x01, 0x02, 0x03, 0x10, 0x11, 0x12, 0x13, 0x14, 0x15] : List (BitVec 8)).all (fun op =>
      let w : Word := op ++ BitVec.allOnes 148 ++ (0 : BitVec 4)
      w.extractLsb' 0 4 == 0 && w.extractLsb' 152 8 == op) = true := by decide

theorem witness_DecodedWordIsEncodingOnUsedBits : decode 0x1300000000000000000000000000000000000000 = .ok .blank := by decide

theorem witness_UnusedFieldsAreIgnored : decode 0x1300000000000000000000000000000000000000 = .ok .blank ∧
    (0x13FFFFFFFFFFFFFFFFFFFFFFFFFFFFFFFFFFFFF0 : Word) &&& Instr.blank.usedMask =
      0x1300000000000000000000000000000000000000 &&& Instr.blank.usedMask := by decide

theorem witness_StepRunsTheDecodedCommand :
    (presented 0x1300000000000000000000000000000000000000).inbox = .command 0x1300000000000000000000000000000000000000 :: [] ∧
      decode 0x1300000000000000000000000000000000000000 = .ok .blank := by decide

theorem witness_BlockWaitsWithNothingPresented : State.reset.inbox = [] := rfl

theorem witness_IllegalWordRaisesIllegalCommand :
    ((0x1300000000000000000000000000000000000001 : Word).extractLsb' 0 4 ≠ 0) ∧
    ((0x1600000000000000000000000000000000000000 : Word).extractLsb' 152 8 ∉
      ([0x01, 0x02, 0x03, 0x10, 0x11, 0x12, 0x13, 0x14, 0x15] : List (BitVec 8))) ∧
    (presented 0).inbox = .command 0 :: [] ∧
    (presented (BitVec.allOnes 160)).inbox = .command (BitVec.allOnes 160) :: [] := by decide

theorem witness_ResetEventResetsTheBlockNotTheChain : ({ State.reset with inbox := [.reset] } : State).inbox = .reset :: [] := rfl

/-- One word for each outcome: completed, refused for its time, refused for its end time. -/
theorem witness_EveryWordHasOneOutcome :
    lands (step { v1State with inbox := [.command (encode .blank)] }) (fun _ => true) = true ∧
    stops (step { v1State with inbox := [.command (encode (.flush 999))] }) .timeWentBackwards = true ∧
    stops (step { v1State with inbox := [.command (encode (.startFade 0 (2 ^ 32 - 4) black 1 1))] }) .endTimeBeyondRange = true := by
  decide

/-- The last end time that fits is inside the spec; the `now` before the largest seen is earlier. -/
theorem witness_CommandsInsideTheSpecComplete :
    (Instr.startFade 0 (2 ^ 32 - 5) black 1 1).InsideSpec v1State ∧
    (Instr.tick 0 999).wellFormed v1State.cfg = true ∧ (Instr.tick 0 999).now? = some 999 ∧ (999 : Time) < v1State.timeSeen := by
  refine ⟨fun _ => ⟨?_, ?_⟩, by decide, by decide, by decide⟩
  · rintro n ⟨⟩
    decide
  · rintro _ _ _ _ _ ⟨⟩
    decide

theorem witness_ResponseWordHasItsFields : ∃ t, (presented (encode .blank)).inbox = .command (encode .blank) :: [] ∧
    step (presented (encode .blank)) = .next t := by
  obtain ⟨t, h, _⟩ := eq_next_of_lands (o := step (presented (encode .blank))) (p := fun _ => true) (by decide)
  exact ⟨t, rfl, h⟩

theorem witness_ErrBitsAreSticky : ∃ t, step (presented 0) = .next t ∧ ∀ rest, (presented 0).inbox ≠ .reset :: rest := by
  obtain ⟨t, h, _⟩ := eq_next_of_lands (o := step (presented 0)) (p := fun _ => true) (by decide)
  exact ⟨t, h, fun rest => by simp [presented]⟩

theorem witness_OutOfRangeChangesOnlyErrAndResponse : (Instr.tick 4 0).wellFormed v1State.cfg = false ∧
    (Instr.tick 3 1000).wellFormed v1State.cfg = true ∧ ∃ t, exec (.tick 3 1000) v1State = .next t := by
  obtain ⟨t, h, _⟩ := eq_next_of_lands (o := exec (.tick 3 1000) v1State) (p := fun _ => true) (by decide)
  exact ⟨by decide, by decide, t, h⟩

theorem witness_ConfigurationIsConstant : ∃ t, step State.reset = .next t := ⟨_, rfl⟩

/-- A TICK presented in the middle of a fade. -/
def v1Ticking : State := { v1State with inbox := [.command (encode (.tick 0 1001))] }

theorem witness_EveryStepKeepsTheInvariant : v1Ticking.Inv ∧ ∃ t, step v1Ticking = .next t := by
  obtain ⟨t, h, _⟩ := eq_next_of_lands (o := step v1Ticking) (p := fun _ => true) (by decide)
  exact ⟨⟨v1State_inv.1, v1State_inv.2, v1State_inv.3, v1State_inv.4, v1State_inv.5, rfl, rfl, v1State_inv.8, v1State_inv.9,
    v1State_inv.10⟩, t, h⟩

theorem witness_WithUnitFloorEveryStepKeepsBanksOnCourse :
    v1Ticking.cfg.minDur = 1 ∧ v1Ticking.Inv ∧ v1Ticking.OnCourse ∧ ∃ t, step v1Ticking = .next t :=
  ⟨rfl, witness_EveryStepKeepsTheInvariant.1, v1State_onCourse, witness_EveryStepKeepsTheInvariant.2⟩

/-- The last millisecond of the Fading window. -/
theorem witness_OnCourseTickNeverPassesItsTarget : v1State.Inv ∧ v1State.OnCourse ∧ (0 : Sel).toNat < v1State.cfg.p ∧
    v1State.timeSeen ≤ 2000 ∧ (v1State.fader (0 : Sel).toNat).active = true ∧ (2000 : Time) < (v1State.fader (0 : Sel).toNat).fadeEndTime :=
  ⟨v1State_inv, v1State_onCourse, by decide, by decide, by decide, by decide⟩

/-- Each clause at its edge: the first `sel` out of range; the last end time that fits; the first that does not. -/
theorem witness_StartFadeBeginsAFade :
    v1State.cfg.p ≤ (4 : Sel).toNat ∧ (3 : Sel).toNat < v1State.cfg.p ∧ v1State.timeSeen ≤ (4294967291 : Time) ∧
    (1 : Int) = max (1 : Dur).toInt v1State.cfg.minDur ∧ (1 : Int) = max (-5 : Dur).toInt v1State.cfg.minDur ∧
    ((4294967291 : Time).toNat : Int) + 1 + v1State.cfg.minDur + 1 + v1State.cfg.minDur = 2 ^ 32 - 1 ∧
    ((4294967292 : Time).toNat : Int) + 1 + v1State.cfg.minDur + 1 + v1State.cfg.minDur = 2 ^ 32 := by decide

theorem witness_StartFadeOpensItsWindows :
    (1 : Int) = max (0 : Dur).toInt v1State.cfg.minDur ∧ (1 : Int) = max (-5 : Dur).toInt v1State.cfg.minDur ∧
    (1 : Int) = v1State.cfg.minDur ∧ (0 : Sel).toNat < v1State.cfg.p ∧ v1State.timeSeen ≤ (4294967291 : Time) ∧
    ((4294967291 : Time).toNat : Int) + 1 + 1 + 2 * 1 ≤ 2 ^ 32 - 1 ∧ (4294967291 : Time) ≤ 4294967293 := by decide

theorem witness_SlopeRoundsTowardZero :
    (1000 : Int) = max (1000 : Dur).toInt v1State.cfg.minDur ∧ (0 : Sel).toNat < v1State.cfg.p ∧ v1State.timeSeen ≤ 1000 ∧
    holdEnd v1State.cfg 1000 1000 500 ≤ 2 ^ 32 - 1 ∧ ∀ c, accVal ((v1State.fader (0 : Sel).toNat).acc.get c) ≤ qMax :=
  ⟨by decide, by decide, by decide, by decide, by intro c; cases c <;> decide⟩

/-- The four phases of fader 0 of 95 V1 at their edges, and the first fader out of range. -/
theorem witness_TickEvaluatesTheFader :
    v1State.cfg.p ≤ (4 : Sel).toNat ∧ (0 : Sel).toNat < v1State.cfg.p ∧ v1State.timeSeen ≤ 1000 ∧
    (v1State.fader 1).active = false ∧ (v1State.fader 0).active = true ∧
    (2000 : Time) < (v1State.fader 0).fadeEndTime ∧
    ((v1State.fader 0).fadeEndTime ≤ 2001 ∧ (2001 : Time) < (v1State.fader 0).holdEndTime) ∧
    ((v1State.fader 0).fadeEndTime ≤ 2502 ∧ (v1State.fader 0).holdEndTime ≤ 2502) := by decide

theorem witness_IdleTickFreezesTheBank : (1 : Sel).toNat < v1State.cfg.p ∧ v1State.timeSeen ≤ 1000 ∧
    (v1State.fader (1 : Sel).toNat).active = false ∧ ∀ c, accVal ((v1State.fader (1 : Sel).toNat).acc.get c) ≤ qMax :=
  ⟨by decide, by decide, by decide, by intro c; cases c <;> decide⟩

theorem witness_TickTwiceIsTickOnce : (0 : Sel).toNat < v1State.cfg.p ∧ v1State.timeSeen ≤ 1000 := by decide

theorem witness_FadingTicksAddUp :
    v1Fader = v1State.fader (0 : Sel).toNat ∧ (0 : Sel).toNat < v1State.cfg.p ∧ v1State.timeSeen ≤ 1000 ∧ (1000 : Time) ≤ 2000 ∧
    v1Fader.active = true ∧ (2000 : Time) < v1Fader.fadeEndTime ∧
    ∀ c, 0 ≤ accVal (v1Fader.acc.get c) + (v1Fader.slope.get c).toInt * (((1000 : Time).toNat : Int) - v1Fader.lastTickTime.toNat) ∧
      accVal (v1Fader.acc.get c) + (v1Fader.slope.get c).toInt * (((1000 : Time).toNat : Int) - v1Fader.lastTickTime.toNat) ≤ qMax :=
  ⟨by decide, by decide, by decide, by decide, rfl, by decide, by intro c; cases c <;> decide⟩

theorem witness_FadingSumStaysInRange : v1State.Inv ∧ v1State.timeSeen ≤ 2000 ∧ (v1State.fader 0).active = true ∧
    (2000 : Time) < (v1State.fader 0).fadeEndTime := ⟨v1State_inv, by decide, by decide, by decide⟩

/-- A long fade, so that `D > 65536` is met too. -/
theorem witness_FadeIsAccurateAtItsNominalEnd :
    (100000 : Int) = max (100000 : Dur).toInt v1State.cfg.minDur ∧ (1 : Int) = max (-5 : Dur).toInt v1State.cfg.minDur ∧
    (1 : Sel).toNat < v1State.cfg.p ∧ v1State.timeSeen ≤ 1000 ∧ holdEnd v1State.cfg 1000 100000 1 ≤ 2 ^ 32 - 1 ∧
    holdEnd v1State.cfg 1000 (-5) 1 ≤ 2 ^ 32 - 1 ∧
    ((101000 : Time).toNat : Int) = (1000 : Time).toNat + 100000 ∧ ((1001 : Time).toNat : Int) = (1000 : Time).toNat + 1 ∧
    ∀ c, accVal ((v1State.fader (1 : Sel).toNat).acc.get c) ≤ qMax :=
  ⟨by decide, by decide, by decide, by decide, by decide, by decide, by decide, by decide, by intro c; cases c <;> decide⟩

/-- 95 V5: the first TICK at `hold_end_time` itself. -/
theorem witness_UntickedHoldNeverSnaps : (0 : Sel).toNat < State.reset.cfg.p ∧ State.reset.timeSeen ≤ 0 ∧
    holdEnd State.reset.cfg 0 100 10 ≤ (112 : Time).toNat ∧ ∀ c, accVal ((State.reset.fader (0 : Sel).toNat).acc.get c) ≤ qMax :=
  ⟨by decide, by decide, by decide, by intro c; cases c <;> decide⟩

theorem witness_FeClearResetsItsBank : v1State.cfg.p ≤ (4 : Sel).toNat ∧ (3 : Sel).toNat < v1State.cfg.p := by decide

theorem witness_UnitsAndBanksDoNotInterfere : (∃ t, exec (.tick 0 1001) v1State = .next t) ∧
    (Instr.tick 0 1001).fader? ≠ some 1 ∧ (Instr.tick 0 1001).fader? ≠ none := by
  obtain ⟨t, h, _⟩ := eq_next_of_lands (o := exec (.tick 0 1001) v1State) (p := fun _ => true) (by decide)
  exact ⟨⟨t, h⟩, by decide, by decide⟩

theorem witness_WriteStoresOneColour : v1State.cfg.nLed ≤ (4 : Sel).toNat ∧ (3 : Sel).toNat < v1State.cfg.nLed := by decide

/-- The interval exactly, and one millisecond short of it. -/
theorem witness_FlushSendsTheFrameWhenDue : State.reset.timeSeen ≤ 9 ∧ State.reset.timeSeen ≤ 10 ∧ State.reset.lines.clk = false ∧
    State.reset.lines.lat = false ∧ State.reset.lastUpdateTime.toNat + State.reset.cfg.minUpdateInterval ≤ (10 : Time).toNat ∧
    (9 : Time).toNat < State.reset.lastUpdateTime.toNat + State.reset.cfg.minUpdateInterval := by decide

theorem witness_PerformedFlushesAreAnIntervalApart : State.reset.timeSeen ≤ 10 ∧
    State.reset.lastUpdateTime.toNat + State.reset.cfg.minUpdateInterval ≤ (10 : Time).toNat ∧ (10 : Time) ≤ 19 ∧ (10 : Time) ≤ 20 ∧
    (10 : Time).toNat + State.reset.cfg.minUpdateInterval ≤ (20 : Time).toNat ∧
    (19 : Time).toNat < (10 : Time).toNat + State.reset.cfg.minUpdateInterval := by decide

theorem witness_InitSendsTheFrameUnthrottled : v1State.timeSeen ≤ 1000 := by decide

theorem witness_LatchedColoursAreTheBuffers : v1State.Inv ∧ v1State.timeSeen ≤ 1000 ∧
    v1State.lastUpdateTime.toNat + v1State.cfg.minUpdateInterval ≤ (1000 : Time).toNat := ⟨v1State_inv, by decide, by decide⟩

theorem witness_FrameForgetsTheOldChain : v1State.lines.clk = false ∧ v1State.lines.lat = false ∧
    v1State.lastUpdateTime.toNat + v1State.cfg.minUpdateInterval ≤ (1000 : Time).toNat := by decide

/-- A FLUSH one millisecond too early. -/
theorem witness_OnlyFramesMoveTheChain : (∃ t, step (presented (encode (.flush 9))) = .next t) ∧
    (∀ now rest w, (presented (encode (.flush 9))).inbox = .command w :: rest → decode w = .ok (.flush now) →
      now.toNat < (presented (encode (.flush 9))).lastUpdateTime.toNat + (presented (encode (.flush 9))).cfg.minUpdateInterval) ∧
    (∀ now rest w, (presented (encode (.flush 9))).inbox = .command w :: rest → decode w ≠ .ok (.init now)) := by
  obtain ⟨t, h, _⟩ := eq_next_of_lands (o := step (presented (encode (.flush 9)))) (p := fun _ => true) (by decide)
  have hd : decode (encode (.flush 9)) = .ok (.flush 9) := by decide
  refine ⟨⟨t, h⟩, ?_, ?_⟩
  · rintro now rest w hi hw
    obtain ⟨rfl, -⟩ : encode (.flush 9) = w ∧ [] = rest := by simpa [presented] using hi
    rw [hd] at hw
    cases hw
    decide
  · rintro now rest w hi hw
    obtain ⟨rfl, -⟩ : encode (.flush 9) = w ∧ [] = rest := by simpa [presented] using hi
    rw [hd] at hw
    cases hw

theorem witness_PulseCountsOfAFrame : State.reset.timeSeen ≤ 10 ∧ State.reset.lines.clk = false ∧ State.reset.lines.lat = false ∧
    State.reset.lastUpdateTime.toNat + State.reset.cfg.minUpdateInterval ≤ (10 : Time).toNat ∧
    (9 : Time).toNat < State.reset.lastUpdateTime.toNat + State.reset.cfg.minUpdateInterval := by decide

theorem witness_OtherCommandsAreSilentOnThePins : (∃ t, exec (.writeAll black) v1State = .next t) ∧
    (∀ now, Instr.writeAll black ≠ .flush now) ∧ (∀ now, Instr.writeAll black ≠ .init now) ∧ Instr.writeAll black ≠ .blank ∧
    Instr.writeAll black ≠ .unblank := ⟨⟨_, rfl⟩, by simp, by simp, by simp, by simp⟩

theorem witness_FlushIsIndependentOfBlanking : v1State.timeSeen ≤ 1000 := by decide

theorem witness_WriteThenFlushShowsTheColour : v1State.Inv ∧ (3 : Sel).toNat < v1State.cfg.nLed ∧ v1State.timeSeen ≤ 1000 ∧
    v1State.lastUpdateTime.toNat + v1State.cfg.minUpdateInterval ≤ (1000 : Time).toNat :=
  ⟨v1State_inv, by decide, by decide, by decide⟩

/-- A sequencer with two colours over four faders. -/
def twoColours : HostSystem :=
  { seq := (Sequencer.blankSlate ⟨4, .stop, 1000, 500, true, by decide⟩).reconfigure .stop 1000 500 (some [⟨1, 1, 1⟩, ⟨2, 2, 2⟩])
    block := v1State }

theorem witness_StopWritesBlackAndLeavesThePool : twoColours.seq.pattern = .stop := rfl

theorem witness_ChangePatternResetsTheEngine : (none : Option (List Color)) ≠ some [] ∧ some [black] ≠ some [] := by simp

/-- Fewer colours than engines, with an index at most the count (2) and one above it (3). -/
theorem witness_ChaserInitAimsEveryEngine : twoColours.seq.params.postIncrement = true ∧ 1 ≤ twoColours.seq.colorCount ∧
    twoColours.block.timeSeen ≤ 1000 ∧
    holdEnd twoColours.block.cfg 1000 twoColours.seq.fadeDuration twoColours.seq.holdDuration ≤ 2 ^ 32 - 1 ∧
    twoColours.seq.colorCount < twoColours.block.cfg.p ∧
    2 = (((twoColours.seq.position : Int) - (2 : Nat)) % twoColours.block.cfg.p).toNat ∧
    3 = (((twoColours.seq.position : Int) - (1 : Nat)) % twoColours.block.cfg.p).toNat ∧
    (State.powerOn oneLed 0 0).cfg.p ≤ twoColours.seq.colorCount := by decide

/-- The targets of engines 0 to 3 that CHASER init assigns, by engine. -/
def chaserTargets (q : Sequencer) (position : Nat) : List Color :=
  (List.range 4).map fun e => (((List.range 4).map (q.chaserAssign 4 position)).find? (fun a => a.1 == e)).elim black Prod.snd

/-- 95 E4: two colours over four engines, the four successive inits. -/
theorem test_chaser_e4 : (List.range 4).map (chaserTargets twoColours.seq) =
    [[⟨1, 1, 1⟩, black, black, ⟨2, 2, 2⟩], [⟨2, 2, 2⟩, ⟨1, 1, 1⟩, black, black], [black, ⟨2, 2, 2⟩, ⟨1, 1, 1⟩, black],
      [black, black, ⟨2, 2, 2⟩, ⟨1, 1, 1⟩]] := by decide
/-- 95 E3: four colours over four engines, the first two inits. -/
theorem test_chaser_e3 :
    (List.range 2).map (chaserTargets (twoColours.seq.reconfigure .chaser 1 1 (some [⟨1, 1, 1⟩, ⟨2, 2, 2⟩, ⟨3, 3, 3⟩, ⟨4, 4, 4⟩]))) =
      [[⟨1, 1, 1⟩, ⟨4, 4, 4⟩, ⟨3, 3, 3⟩, ⟨2, 2, 2⟩], [⟨2, 2, 2⟩, ⟨1, 1, 1⟩, ⟨4, 4, 4⟩, ⟨3, 3, 3⟩]] := by decide

theorem witness_ChaserPaddingOffByOneIsHarmless : ([⟨1, 1, 1⟩, ⟨2, 2, 2⟩] : List Color) ≠ [] ∧ twoColours.seq.colorCount < 4 := by decide

end Sys2Proof.Tests
end

section
/-! The statements of 00_scope: what a step runs, what it never changes, and which commands complete. -/

namespace Sys2Proof.Machine

/-! ### Which commands complete (00_scope R9, 60_exceptions R231) -/

/-- A command the host is entitled to send completes: out of range with its error, in range with its effect. -/
theorem exec_completes_of_insideSpec {i : Instr} {s : State} (h : i.InsideSpec s) : ∃ t, exec i s = .next t := by
  cases hw : i.wellFormed s.cfg with
  | false => exact ⟨_, exec_out hw⟩
  | true => exact ⟨_, exec_inside hw h⟩

/-- Only such a command completes; out of range, `InsideSpec` asks nothing. -/
theorem insideSpec_of_exec_completes {i : Instr} {s t : State} (h : exec i s = .next t) : i.InsideSpec s := by
  obtain ⟨hout, -⟩ | ⟨-, hinside, -⟩ := exec_next_cases h
  · intro hw
    simp [hout] at hw
  · exact hinside

/-- Settles O12, by cases on the range check: `exec` inverted gives one direction, its equations the other. -/
theorem commandsInsideTheSpecComplete : Obligations.CommandsInsideTheSpecComplete :=
  ⟨fun _ _ => ⟨exec_completes_of_insideSpec, fun ⟨_, h⟩ => insideSpec_of_exec_completes h⟩,
    fun _ _ _ hw hn hlt => exec_early hw hn hlt⟩

/-! ### The configuration (00_scope R5, 10_state R34, R42) -/

@[simp] theorem State.seen_cfg (s : State) (now : Option Time) : (s.seen now).cfg = s.cfg := rfl

theorem effect_cfg (i : Instr) (s : State) : (effect i s).cfg = s.cfg := (effect_rest i s).1

theorem exec_cfg {i : Instr} {s t : State} (h : exec i s = .next t) : t.cfg = s.cfg := by
  obtain ⟨-, rfl⟩ | ⟨-, -, rfl⟩ := exec_next_cases h
  · exact State.raise_cfg s _
  · rw [effect_cfg, State.seen_cfg]

/-- Settles O16, by cases on what the step did: it waited, reset, raised IllegalCommand, or ran a command. -/
theorem configurationIsConstant : Obligations.ConfigurationIsConstant := by
  intro s t h
  obtain ⟨-, rfl⟩ | ⟨rest, -, rfl⟩ | ⟨w, rest, e, -, -, rfl⟩ | ⟨w, rest, i, -, -, hexec⟩ := step_cases h
  · rfl
  · exact State.applyReset_cfg _
  · exact State.raise_cfg _ _
  · calc
      t.cfg = State.cfg { s with inbox := rest } := exec_cfg hexec
      _ = s.cfg := rfl

/-! ### The step (00_scope R8, 30_encoding R88) -/

/-- Settles O6: the step takes the presented word, and a word that decodes runs its command. -/
theorem stepRunsTheDecodedCommand : Obligations.StepRunsTheDecodedCommand := by
  intro s w rest i hinbox hdecode
  rw [step_command hinbox, runWord_ok _ hdecode]

end Sys2Proof.Machine
end

section
/-! The statements of 10_state: the values after power-on, the invariant along every step, and which units a command reaches. -/

namespace Sys2Proof.Machine

variable {s t : State}

/-! ### A bank's invariant (10_state R31, 40_fade_engine R116) -/

/-- A later time keeps a bank's invariant: only `last_tick_time` is bounded by it. -/
theorem Fader.Inv.mono {f : Fader} {m n : Time} (h : f.Inv m) (hmn : m ≤ n) : f.Inv n where
  accLe := h.accLe
  slopeLe := h.slopeLe
  times := h.times.imp_right fun ⟨hfade, hhold, hlast⟩ => ⟨hfade, hhold, BitVec.le_trans hlast hmn⟩
  reach := h.reach

theorem Fader.reset_inv (n : Time) : Fader.reset.Inv n where
  accLe c := by cases c <;> decide
  slopeLe c := by cases c <;> decide
  times := .inl ⟨rfl, rfl, rfl, rfl⟩
  reach c := by cases c <;> decide

/-- End times that fit are in order: every floored duration and `MIN_DUR` is at least one millisecond (40_fade_engine R111, R114). -/
theorem Fader.start_timesOrdered {c : Config} {now : Time} {fade hold : Dur} (f : Fader) (target : Color)
    (hend : holdEnd c now fade hold ≤ 2 ^ 32 - 1) : (f.start c now target fade hold).TimesOrdered now := by
  obtain ⟨hfadeEnd, hholdEnd⟩ := f.start_times target hend
  have hfloor := (flooredDur_bounds c fade).2.1
  have hfloor' := (flooredDur_bounds c hold).2.1
  refine .inr ⟨BitVec.lt_def.2 ?_, BitVec.lt_def.2 ?_, BitVec.le_refl now⟩
  · rw [hfadeEnd]
    change now.toNat < fadeEnd c now fade
    unfold fadeEnd
    omega
  · rw [hfadeEnd, hholdEnd]
    unfold holdEnd
    omega

/-- A slope `tdiv(a, d)` runs at most twice the distance in `d + m` milliseconds when `m ≤ d`. -/
theorem tdiv_reach (a : Int) {d m : Int} (hd : 1 ≤ d) (hm : m ≤ d) : |tdiv a d| * (d + m) ≤ 2 * |a| := by
  have hfull : |tdiv a d| * d ≤ |a| := by
    have hbound := (tdiv_bounds a hd).1
    rwa [abs_mul, abs_of_nonneg (by omega : (0 : Int) ≤ d)] at hbound
  calc
    |tdiv a d| * (d + m) ≤ |tdiv a d| * (2 * d) := mul_le_mul_of_nonneg_left (by omega) (abs_nonneg _)
    _ = 2 * (|tdiv a d| * d) := by ring
    _ ≤ 2 * |a| := by omega

/-- START_FADE keeps a bank's invariant (40_fade_engine R111, R115). -/
theorem Fader.Inv.start {f : Fader} {n now : Time} {c : Config} {fade hold : Dur} (h : f.Inv n) (target : Color)
    (hend : holdEnd c now fade hold ≤ 2 ^ 32 - 1) : (f.start c now target fade hold).Inv now := by
  have hdur : (1 : Int) ≤ max fade.toInt c.minDur := by have := Config.minDur_pos c; omega
  have hgap (ch : Channel) := delta_le_qMax (target.get ch) (h.accLe ch)
  refine ⟨h.accLe, fun ch => ?_, f.start_timesOrdered target hend, fun ch => ?_⟩
  · rw [Fader.start_slope]
    exact (tdiv_bounds _ hdur).2.2.1.trans (hgap ch)
  · have hwindow : ((f.start c now target fade hold).fadeEndTime.toNat : Int) - now.toNat =
        max fade.toInt c.minDur + c.minDur := by
      rw [(f.start_times target hend).1, fadeEnd_val]
      omega
    calc
      _ = |tdiv (qOf (target.get ch).toNat - accVal (f.acc.get ch)) (max fade.toInt c.minDur)| *
            (max fade.toInt c.minDur + c.minDur) := by rw [Fader.start_slope, ← hwindow]; rfl
      _ ≤ 2 * |qOf (target.get ch).toNat - accVal (f.acc.get ch)| := tdiv_reach _ hdur (le_max_right _ _)
      _ ≤ 2 * qMax := by have := hgap ch; omega

/-- An active bank has been started, so its times are in order (10_state R31 (c)). -/
theorem Fader.Inv.times_of_active {f : Fader} {n : Time} (h : f.Inv n) (ha : f.active = true) :
    f.lastTickTime < f.fadeEndTime ∧ f.fadeEndTime < f.holdEndTime ∧ f.lastTickTime ≤ n := by
  obtain ⟨hidle, -⟩ | hordered := h.times
  · simp [ha] at hidle
  · exact hordered

/-- The Fading branch keeps a bank's invariant: the clamp bounds `acc`, and the slope has less of its window left. -/
theorem Fader.Inv.advance {f : Fader} {now : Time} (h : f.Inv now) (ha : f.active = true) (hfading : now < f.fadeEndTime) :
    (f.advance now).Inv now := by
  obtain ⟨-, hhold, hlast⟩ := h.times_of_active ha
  refine ⟨fun c => ?_, h.slopeLe, .inr ⟨hfading, hhold, BitVec.le_refl now⟩, fun c => ?_⟩
  · rw [Fader.advance_acc]
    exact clampQ_le _
  · have hlast' := BitVec.le_def.1 hlast
    calc
      |(f.slope.get c).toInt| * ((f.fadeEndTime.toNat : Int) - now.toNat)
        ≤ |(f.slope.get c).toInt| * ((f.fadeEndTime.toNat : Int) - f.lastTickTime.toNat) :=
          mul_le_mul_of_nonneg_left (by omega) (abs_nonneg _)
      _ ≤ 2 * qMax := h.reach c

theorem Fader.Inv.snap {f : Fader} {n : Time} (h : f.Inv n) : f.snap.Inv n where
  accLe c := by rw [Fader.snap_acc]; exact qOf_chan_le _
  slopeLe := h.slopeLe
  times := h.times
  reach := h.reach

theorem Fader.Inv.retire {f : Fader} {n : Time} (h : f.Inv n) : f.retire.Inv n where
  accLe := h.accLe
  slopeLe := h.slopeLe
  times := h.times.imp_left fun ⟨_, htimes⟩ => ⟨rfl, htimes⟩
  reach := h.reach

theorem Fader.Inv.clampAcc {f : Fader} {n : Time} (h : f.Inv n) : f.clampAcc.Inv n := by
  rwa [Fader.clampAcc_of_le h.accLe]

/-- TICK keeps a bank's invariant, in each phase (40_fade_engine R112). -/
theorem Fader.Inv.tick {f : Fader} {now : Time} (h : f.Inv now) : (f.tick now).1.Inv now := by
  obtain ⟨-, heq⟩ | ⟨ha, hfading, heq⟩ | ⟨-, -, -, heq⟩ | ⟨-, -, -, heq⟩ := f.tick_cases now
  · rw [heq]; exact h.clampAcc
  · rw [heq]; exact h.advance ha hfading
  · rw [heq]; exact h.snap
  · rw [heq]; exact h.retire.clampAcc

/-! ### Power-on (10_state R44) -/

theorem Fader.reset_current : Fader.reset.current = ⟨0, 0, 0⟩ := by decide

/-- Settles O10: nothing is listed after power-on, so every bank and every entry reads its reset value. -/
theorem powerOnHoldsTheResetValues : Obligations.PowerOnHoldsTheResetValues := by
  intro c sh la
  refine ⟨fun _ => rfl, fun _ => Fader.reset_current, fun ch _ => ?_, rfl, rfl, rfl, rfl, rfl, rfl⟩
  cases ch <;> rfl

theorem State.powerOn_inv (c : Config) (sh la : BitVec (36 * c.nLed)) : (State.powerOn c sh la).Inv where
  fadersWf := rfl
  fadersBelow := rfl
  bufferWf ch := by cases ch <;> rfl
  bufferBelow ch := by cases ch <;> rfl
  fader _ := Fader.reset_inv _
  clkLow := rfl
  latLow := rfl
  shregBits := sh.isLt
  latchedBits := la.isLt
  updateSeen := BitVec.le_refl _

/-- Settles O17: the memories are empty, every bank is the reset bank, and the chain's words have `L` bits. -/
theorem invariantHoldsAfterPowerOn : Obligations.InvariantHoldsAfterPowerOn :=
  ⟨State.powerOn_inv, State.powerOn_inv _ _ _⟩

/-! ### The operations keep the invariant -/

theorem State.Inv.takeInbox (h : s.Inv) (rest : List HostEvent) : State.Inv { s with inbox := rest } := { h with }

theorem State.Inv.respond (h : s.Inv) (changed flushed : Bool) : (s.respond changed flushed).Inv := { h with }

theorem State.Inv.raise (h : s.Inv) (e : Err) : (s.raise e).Inv := { h with }

/-- An accepted `now` is not earlier than before, so every bound by the latest time still holds (00_scope R9). -/
theorem State.Inv.seen (h : s.Inv) {n : Option Time} (hn : ∀ now, n = some now → s.timeSeen ≤ now) : (s.seen n).Inv := by
  have hle : s.timeSeen ≤ (s.seen n).timeSeen := by
    cases n with
    | none => exact BitVec.le_refl _
    | some now => exact hn now rfl
  exact { h with
    fader := fun e => (h.fader e).mono hle
    updateSeen := BitVec.le_trans h.updateSeen hle }

theorem State.Inv.setFader (h : s.Inv) {e : Nat} {f : Fader} (he : e < s.cfg.p) (hf : f.Inv s.timeSeen) :
    (s.setFader e f).Inv :=
  { h with
    fadersWf := s.wf_setFader e f h.fadersWf
    fadersBelow := Store.below_write h.fadersBelow he
    fader := fun e' => by
      rw [State.fader_setFader]
      split
      · exact hf
      · exact h.fader e' }

theorem State.Inv.bufWriteColor (h : s.Inv) {p : Nat} (hp : p < s.cfg.nLed) (c : Color) : (s.bufWriteColor p c).Inv :=
  { h with
    bufferWf := fun ch => s.wf_bufWriteColor ch p c (h.bufferWf ch)
    bufferBelow := fun ch => s.below_bufWriteColor ch p _ c (h.bufferBelow ch) hp }

/-- WRITE_ALL writes only entries the translation table reaches, all of them in range (41_led_driver R142). -/
theorem State.Inv.writeAllLeds (h : s.Inv) (c : Color) : (s.writeAllLeds c).Inv := by
  have key : (s.writeAllLeds c).Inv ∧ (s.writeAllLeds c).cfg = s.cfg := by
    refine List.foldlRecOn (motive := fun t : State => t.Inv ∧ t.cfg = s.cfg) _ _ ⟨h, rfl⟩ ?_
    rintro t ⟨ht, hcfg⟩ li hli
    have hp : physIndex s.cfg li < t.cfg.nLed := hcfg ▸ (physIndex_spec s.cfg (List.mem_range.1 hli)).2
    exact ⟨ht.bufWriteColor hp c, hcfg⟩
  exact key.1

theorem State.Inv.pin_blank (h : s.Inv) (v : Bool) : (s.pin .blank v).Inv := by
  rw [State.pin_blank_eq]
  exact { h with }

theorem State.Inv.configureAndBlank (h : s.Inv) : s.configureAndBlank.Inv := by
  rw [State.configureAndBlank_eq]
  exact { h with clkLow := rfl, latLow := rfl }

/-- A frame sent at an accepted time leaves the lines idle and `L` bits in the chain (42_serial_output_stage R177, R178). -/
theorem State.Inv.sendFrame (h : s.Inv) {now : Time} (hnow : now ≤ s.timeSeen) : (s.sendFrame now).Inv := by
  rw [State.sendFrame_eq h.clkLow h.latLow]
  exact { h with
    shregBits := s.frameVal_lt
    latchedBits := s.frameVal_lt
    updateSeen := hnow }

/-- A reset puts the block at the values of power-on and leaves the chain as it was (70_reset_and_hazards R250, R251). -/
theorem State.Inv.applyReset (h : s.Inv) : s.applyReset.Inv :=
  { State.powerOn_inv s.cfg 0 0 with
    shregBits := h.shregBits
    latchedBits := h.latchedBits }

/-! ### Every step keeps the invariant -/

/-- A command inside the spec, its `now` already remembered, keeps the invariant. -/
theorem State.Inv.effect {i : Instr} (h : s.Inv) (hw : i.wellFormed s.cfg = true)
    (hnow : ∀ now, i.now? = some now → s.timeSeen = now)
    (hend : ∀ sel now target fade hold, i = .startFade sel now target fade hold → holdEnd s.cfg now fade hold ≤ 2 ^ 32 - 1) :
    (effect i s).Inv := by
  cases i with
  | startFade sel now target fade hold =>
    have hbank := (h.fader sel.toNat).start target (hend _ _ _ _ _ rfl)
    exact (h.setFader (of_decide_eq_true hw) (hnow now rfl ▸ hbank)).respond _ _
  | tick sel now =>
    have hbank : ((s.fader sel.toNat).tick now).1.Inv now := (hnow now rfl ▸ h.fader sel.toNat).tick
    exact (h.setFader (of_decide_eq_true hw) (hnow now rfl ▸ hbank)).respond _ _
  | feClear sel => exact (h.setFader (of_decide_eq_true hw) (Fader.reset_inv _)).respond _ _
  | write sel color => exact (h.bufWriteColor (physIndex_spec s.cfg (of_decide_eq_true hw)).2 color).respond _ _
  | writeAll color => exact (h.writeAllLeds color).respond _ _
  | flush now =>
    simp only [Machine.effect]
    split
    · exact (h.sendFrame (hnow now rfl ▸ BitVec.le_refl _)).respond _ _
    · exact h.respond _ _
  | blank => exact (h.pin_blank true).respond _ _
  | unblank => exact (h.pin_blank false).respond _ _
  | init now =>
    have hseen : now ≤ s.configureAndBlank.timeSeen := by simp [hnow now rfl]
    exact ((h.configureAndBlank.sendFrame hseen).pin_blank false).respond _ _

/-- A command that completes keeps the invariant: out of range it only raises, inside the spec it has its effect. -/
theorem State.Inv.exec {i : Instr} (h : s.Inv) (hexec : exec i s = .next t) : t.Inv := by
  obtain ⟨-, rfl⟩ | ⟨hw, hinside, rfl⟩ := exec_next_cases hexec
  · exact h.raise _
  · obtain ⟨hintime, hend⟩ := hinside hw
    refine (h.seen hintime).effect hw (fun now hnow => ?_) hend
    simp [State.seen, hnow]

/-- Settles O18, by cases on what the step did: it waited, reset, raised IllegalCommand, or ran a command. -/
theorem everyStepKeepsTheInvariant : Obligations.EveryStepKeepsTheInvariant := by
  intro s t h hstep
  obtain ⟨-, rfl⟩ | ⟨rest, -, rfl⟩ | ⟨w, rest, e, -, -, rfl⟩ | ⟨w, rest, i, -, -, hexec⟩ := step_cases hstep
  · exact h
  · exact (h.takeInbox rest).applyReset
  · exact (h.takeInbox rest).raise _
  · exact (h.takeInbox rest).exec hexec

/-! ### Which units a command reaches (10_state R22, 41_led_driver R140) -/

theorem State.raise_sameDriver (s : State) (e : Err) : s.SameDriver (s.raise e) :=
  ⟨State.bufRead_congr rfl rfl rfl, rfl, rfl, rfl, rfl, rfl⟩

/-- Settles O32: out of range a command only raises; in range its effect reaches its own bank, or the driver and no bank. -/
theorem unitsAndBanksDoNotInterfere : Obligations.UnitsAndBanksDoNotInterfere := by
  intro i s t hexec
  obtain ⟨-, rfl⟩ | ⟨-, -, rfl⟩ := exec_next_cases hexec
  · exact ⟨fun _ _ => rfl, fun _ => s.raise_sameDriver _⟩
  · exact ⟨fun _ he => effect_other_bank (s.seen i.now?) he, fun hf => effect_driver (s.seen i.now?) hf⟩

end Sys2Proof.Machine
end

section
/-! The statements of 20_memory: what a command sees of the commands before it, and which LED a buffer entry reaches. -/

namespace Sys2Proof.Machine

variable {s : State}

/-! ### A WRITE, and a due FLUSH (41_led_driver R141, R143) -/

/-- WRITE in range: the three entries at the effective address, and the response (20_memory R61). -/
theorem exec_write_ok {sel : Sel} (h : sel.toNat < s.cfg.nLed) (c : Color) :
    exec (.write sel c) s = .next ((s.bufWriteColor (physIndex s.cfg sel.toNat) c).respond false false) := by
  simp only [exec, execWrite, onLed_in h]

/-- A due FLUSH in time sends the frame (41_led_driver R143). -/
theorem exec_flush_due {now : Time} (ht : s.timeSeen ≤ now)
    (hdue : s.lastUpdateTime.toNat + s.cfg.minUpdateInterval ≤ now.toNat) :
    exec (.flush now) s = .next (((s.seen (some now)).sendFrame now).respond false true) := by
  rw [exec_flush_ok ht, effect, if_pos ((flushDue_seen_iff s now _).2 hdue)]

/-- A frame sent from idle lines shows each LED its buffer entry (41_led_driver R150, 42_serial_output_stage R176). -/
theorem State.latchedColor_sendFrame (hc : s.lines.clk = false) (hl : s.lines.lat = false) (now : Time) {p : Nat}
    (hp : p < s.cfg.nLed) : (s.sendFrame now).latchedColor p = s.bufColor p := by
  refine State.latchedColor_of_frame (by simp [State.chainBits]) (fun j hj => ?_) p hp
  rw [State.sendFrame_eq hc hl]
  exact s.frameVal_testBit j hj

/-- A due FLUSH from a state that meets the invariant: every LED latches its buffer entry, and the blank gate stays. -/
theorem exec_flush_due_latches_buffers (h : s.Inv) {now : Time} (ht : s.timeSeen ≤ now)
    (hdue : s.lastUpdateTime.toNat + s.cfg.minUpdateInterval ≤ now.toNat) :
    ∃ u, exec (.flush now) s = .next u ∧ u.lines.blank = s.lines.blank ∧
      ∀ p, p < s.cfg.nLed → u.latchedColor p = s.bufColor p := by
  refine ⟨_, exec_flush_due ht hdue, ?_, fun p hp => ?_⟩
  · rw [State.respond_lines, State.sendFrame_eq (s := s.seen (some now)) h.clkLow h.latLow]
    rfl
  · exact State.latchedColor_sendFrame (s := s.seen (some now)) h.clkLow h.latLow now hp

/-! ### The colour written, read back (20_memory R61, R64) -/

theorem State.bufColor_bufWriteColor_self (p : Nat) (c : Color) : (s.bufWriteColor p c).bufColor p = c := by
  simp only [State.bufColor, State.bufRead_bufWriteColor, ↓reduceIte, Lanes.get]

theorem State.bufColor_bufWriteColor_other {p p' : Nat} (h : p' ≠ p) (c : Color) :
    (s.bufWriteColor p c).bufColor p' = s.bufColor p' := by
  simp only [State.bufColor, State.bufRead_bufWriteColor, if_neg h]

theorem State.ledOut_of_not_blanked (h : s.lines.blank = false) (p : Nat) : s.ledOut p = s.latchedColor p := by
  simp [State.ledOut, h]

/-- Settles O46: the WRITE keeps the invariant, so the FLUSH latches the buffers it left: `c` at the effective address, and every
other entry as before (20_memory R66 (b)). -/
theorem writeThenFlushShowsTheColour : Obligations.WriteThenFlushShowsTheColour := by
  intro s sel c now hinv hsel ht hdue
  obtain ⟨htranslation, hp⟩ := physIndex_spec s.cfg hsel
  have hwrite := exec_write_ok hsel c
  obtain ⟨u, hflush, hblank, hlatched⟩ := exec_flush_due_latches_buffers (hinv.exec hwrite) ht hdue
  have hshown : u.latchedColor (physIndex s.cfg sel.toNat) = c :=
    (hlatched _ hp).trans (s.bufColor_bufWriteColor_self _ c)
  refine ⟨_, u, physIndex s.cfg sel.toNat, hwrite, hflush, htranslation, hshown, fun hon => ?_, fun p' hp' hne => ?_⟩
  · exact (u.ledOut_of_not_blanked (hblank.trans hon) _).trans hshown
  · exact (hlatched p' hp').trans (s.bufColor_bufWriteColor_other hne c)

end Sys2Proof.Machine
end

section
/-! The statements of 30_encoding: decoder and encoder, the nine opcodes, illegal words, and the response word. -/

namespace Sys2Proof

open Machine

/-! ### A command's operands, read from a word (30_encoding R82, R83) -/

/-- The command of the same row of the opcode map as `i`, its operands read from `w`. -/
def Instr.readFrom (i : Instr) (w : Word) : Instr :=
  match i with
  | .startFade _ _ _ _ _ => .startFade w.sel w.now w.color w.fade w.hold
  | .tick _ _ => .tick w.sel w.now
  | .feClear _ => .feClear w.sel
  | .write _ _ => .write w.sel w.color
  | .writeAll _ => .writeAll w.color
  | .flush _ => .flush w.now
  | .blank => .blank
  | .unblank => .unblank
  | .init _ => .init w.now

/-- A word is a command's exactly when `rsvd` is zero, the opcode is the command's, and the operands are the word's fields. -/
theorem decode_eq_ok_iff {w : Word} {i : Instr} :
    decode w = .ok i ↔ w.rsvd = 0 ∧ w.opcode = i.opcode ∧ i.readFrom w = i := by
  rw [decode_ok_iff, eq_comm (a := i.readFrom w)]
  cases i <;> rfl

@[simp] theorem encode_opcode (i : Instr) : (encode i).opcode = i.opcode := by
  cases i <;> exact packC160_opcode ..

@[simp] theorem encode_rsvd (i : Instr) : (encode i).rsvd = 0 := by
  cases i <;> exact packC160_rsvd ..

/-- The encoder puts each operand where the decoder reads it. -/
@[simp] theorem Instr.readFrom_encode (i : Instr) : i.readFrom (encode i) = i := by
  cases i <;> simp [Instr.readFrom, encode]

/-- Settles O1: the encoder's word has `rsvd` zero, the command's opcode, and its operands in their fields. -/
theorem decodeInvertsEncode : Obligations.DecodeInvertsEncode := fun i =>
  decode_eq_ok_iff.2 ⟨encode_rsvd i, encode_opcode i, i.readFrom_encode⟩

/-! ### The bits a command uses, and those it ignores (30_encoding R84) -/

/-- A word with `rsvd` zero, masked, is its opcode and the fields asked for, put together. -/
theorem and_fieldMask_eq_packC160 {w : Word} (hrsvd : w.rsvd = 0) (sel now color durations : Bool) :
    w &&& fieldMask sel now color durations =
      packC160 w.opcode (if sel then w.sel else 0) (if now then w.now else 0) (if color then w.color else black)
        (if durations then w.fade else 0) (if durations then w.hold else 0) := by
  obtain ⟨hopcode, hmasked, hsel, hnow, hcolor, hfade, hhold⟩ := and_fieldMask w sel now color durations
  apply word_ext
  · rw [hopcode, packC160_opcode]
  · rw [hsel, packC160_sel]
  · rw [hnow, packC160_now]
  · rw [hcolor, packC160_color]
  · rw [hfade, packC160_fade]
  · rw [hhold, packC160_hold]
  · rw [hmasked, hrsvd, packC160_rsvd]

/-- A word with `rsvd` zero and the command's opcode, on the bits the command uses, is the encoding of the command read from it. -/
theorem and_usedMask_eq_encode_readFrom {w : Word} {i : Instr} (hrsvd : w.rsvd = 0) (hopcode : w.opcode = i.opcode) :
    w &&& i.usedMask = encode (i.readFrom w) := by
  cases i <;> exact (and_fieldMask_eq_packC160 hrsvd ..).trans (by rw [hopcode]; rfl)

/-- Settles O2: a word that decodes has `rsvd` zero and its command's opcode, and the command is the one read from it. -/
theorem decodedWordIsEncodingOnUsedBits : Obligations.DecodedWordIsEncodingOnUsedBits := by
  intro w i hdecode
  obtain ⟨hrsvd, hopcode, hread⟩ := decode_eq_ok_iff.1 hdecode
  rw [and_usedMask_eq_encode_readFrom hrsvd hopcode, hread]

theorem and_usedMask_opcode (w : Word) (i : Instr) : (w &&& i.usedMask).opcode = w.opcode := by
  cases i <;> exact (and_fieldMask w ..).1

theorem and_usedMask_rsvd (w : Word) (i : Instr) : (w &&& i.usedMask).rsvd = w.rsvd := by
  cases i <;> exact (and_fieldMask w ..).2.1

/-- Every operand a command reads lies on the bits it uses. -/
theorem readFrom_and_usedMask (w : Word) (i : Instr) : i.readFrom (w &&& i.usedMask) = i.readFrom w := by
  cases i <;> simp only [Instr.readFrom, Instr.usedMask, and_fieldMask, ↓reduceIte]

/-- Whether a word is a given command is decided by the bits the command uses. -/
theorem decode_and_usedMask (w : Word) (i : Instr) : decode (w &&& i.usedMask) = .ok i ↔ decode w = .ok i := by
  rw [decode_eq_ok_iff, decode_eq_ok_iff, and_usedMask_rsvd, and_usedMask_opcode, readFrom_and_usedMask]

/-- Settles O3: both words decode as their common used bits do. -/
theorem unusedFieldsAreIgnored : Obligations.UnusedFieldsAreIgnored := by
  intro w w' i hdecode hagree
  rwa [← decode_and_usedMask, hagree, decode_and_usedMask]

/-! ### The legal words (30_encoding R83, R85, R86) -/

/-- The decoder answers a command exactly for the opcodes in its map, `rsvd` zero. -/
theorem exists_decode_eq_ok_iff (w : Word) :
    (∃ i, decode w = .ok i) ↔ w.rsvd = 0 ∧ w.opcode ∈ opcodeMap.map OpcodeRow.opcode := by
  have hrow : (∃ row ∈ opcodeMap, (row.opcode == w.opcode) = true) ↔ w.opcode ∈ opcodeMap.map OpcodeRow.opcode := by
    simp only [List.mem_map, beq_iff_eq]
  rw [← hrow, ← List.find?_isSome, decode]
  by_cases hrsvd : w.rsvd = 0
  · rw [if_pos hrsvd]
    cases opcodeMap.find? (fun row => row.opcode == w.opcode) <;> simp [hrsvd]
  · rw [if_neg hrsvd]
    exact iff_of_false (fun ⟨_, h⟩ => nomatch h) (fun h => hrsvd h.1)

/-- Settles O4: the nine opcodes are those of the decoder's map. -/
theorem legalWordsAreExactlyTheNineOpcodes : Obligations.LegalWordsAreExactlyTheNineOpcodes :=
  exists_decode_eq_ok_iff

/-- A word that decodes to nothing raises IllegalCommand and is taken (30_encoding R86, 60_exceptions R234). -/
theorem step_illegal {s : State} {w : Word} {rest : List HostEvent} (hinbox : s.inbox = .command w :: rest)
    (hillegal : ¬ ∃ i, decode w = .ok i) :
    step s = .next { s with inbox := rest, err := s.err ||| 0b10, responses := 0x02 :: s.responses } := by
  cases hdecode : decode w with
  | ok i => exact absurd ⟨i, hdecode⟩ hillegal
  | error e => rw [step_command hinbox, runWord_error _ hdecode, raise_illegalCommand]

/-- Settles O8: such a word decodes to nothing; the all-zero word has opcode `0x00`, the all-ones word a nonzero `rsvd`. -/
theorem illegalWordRaisesIllegalCommand : Obligations.IllegalWordRaisesIllegalCommand := by
  refine ⟨fun s w rest hinbox hbad => step_illegal hinbox ?_, fun s rest hinbox => ?_⟩
  · rw [legalWordsAreExactlyTheNineOpcodes]
    rintro ⟨hrsvd, hopcode⟩
    exact hbad.elim (· hrsvd) (· hopcode)
  · obtain hzero | hones := hinbox
    · exact step_illegal hzero (by rw [legalWordsAreExactlyTheNineOpcodes]; decide)
    · exact step_illegal hones (by rw [legalWordsAreExactlyTheNineOpcodes]; decide)

/-! ### Words of the spec's examples -/

/-- Settles O5, by running the decoder on each word. -/
theorem specWordsDecode : Obligations.SpecWordsDecode := by
  unfold Obligations.SpecWordsDecode
  decide

end Sys2Proof

namespace Sys2Proof.Machine

/-! ### The response word (30_encoding R90) -/

theorem responseWord_high (c f : Bool) (e : BitVec 2) : (responseWord c f e).extractLsb' 4 4 = 0 := by
  revert c f e
  decide

theorem responseWord_flushed (c f : Bool) (e : BitVec 2) : (responseWord c f e).getLsbD 3 = f := by
  revert c f e
  decide

theorem responseWord_changed (c f : Bool) (e : BitVec 2) : (responseWord c f e).getLsbD 2 = c := by
  revert c f e
  decide

theorem responseWord_err (c f : Bool) (e : BitVec 2) : (responseWord c f e).extractLsb' 0 2 = e := by
  revert c f e
  decide

/-- A response made of two result bits and an error, its fields read back as the conditions they stand for. -/
theorem exists_response_with_fields {before after : List Response} {changed flushed : Bool} {err : BitVec 2}
    {Changed Flushed Undecoded OutOfRange : Prop} (hafter : after = responseWord changed flushed err :: before)
    (herr : err ≠ 0b11) (hquiet : err ≠ 0 → changed = false ∧ flushed = false) (hflushed : flushed = true ↔ Flushed)
    (hchanged : changed = true ↔ Changed) (hillegal : err = 0b10 ↔ Undecoded) (hout : err = 0b01 ↔ OutOfRange) :
    ∃ r : Response, after = r :: before ∧ r.extractLsb' 4 4 = 0 ∧ r.extractLsb' 0 2 ≠ 0b11 ∧
      (r.extractLsb' 0 2 ≠ 0 → r.getLsbD 2 = false ∧ r.getLsbD 3 = false) ∧ (r.getLsbD 3 = true ↔ Flushed) ∧
      (r.getLsbD 2 = true ↔ Changed) ∧ (r.extractLsb' 0 2 = 0b10 ↔ Undecoded) ∧ (r.extractLsb' 0 2 = 0b01 ↔ OutOfRange) := by
  refine ⟨responseWord changed flushed err, hafter, ?_⟩
  rw [responseWord_high, responseWord_err, responseWord_changed, responseWord_flushed]
  exact ⟨rfl, herr, hquiet, hflushed, hchanged, hillegal, hout⟩

/-- The `flushed` bit of an accepted command. -/
def flushedBit (i : Instr) (s : State) : Bool :=
  match i with
  | .flush now => s.flushDue now
  | .init _ => true
  | _ => false

/-- The `changed` bit of an accepted command. -/
def changedBit (i : Instr) (s : State) : Bool :=
  match i with
  | .tick sel now => ((s.fader sel.toNat).tick now).2
  | _ => false

/-- An accepted command's response: its two result bits, and no error. -/
theorem effect_responses (i : Instr) (s : State) :
    (effect i s).responses = responseWord (changedBit i s) (flushedBit i s) 0 :: s.responses := by
  cases i <;> simp only [effect, changedBit, flushedBit]
  case writeAll c => rw [State.writeAllLeds_eq]; rfl
  case flush now => cases s.flushDue now <;> simp
  all_goals simp

theorem flushedBit_iff (i : Instr) (s : State) :
    flushedBit i s = true ↔
      (∃ now, i = .flush now ∧ s.lastUpdateTime.toNat + s.cfg.minUpdateInterval ≤ now.toNat) ∨ ∃ now, i = .init now := by
  cases i <;> simp [flushedBit, State.flushDue]

/-- TICK answers a change exactly when the bank is Fading and its 12-bit colour moved (40_fade_engine R118). -/
theorem Fader.tick_changed_iff (f : Fader) (now : Time) :
    (f.tick now).2 = true ↔ f.phase now = .fading ∧ (f.tick now).1.current ≠ f.current := by
  cases hphase : f.phase now <;> simp [Fader.tick, hphase, Fader.clampAcc_advance]

theorem changedBit_iff (i : Instr) (s : State) :
    changedBit i s = true ↔ ∃ sel now, i = .tick sel now ∧ (s.fader sel.toNat).phase now = .fading ∧
      (effect i s).current sel.toNat ≠ s.current sel.toNat := by
  cases i
  case tick sel now =>
    have hbank : (effect (.tick sel now) s).fader sel.toNat = ((s.fader sel.toNat).tick now).1 :=
      effect_tick_fader s sel now none
    simp only [changedBit, Fader.tick_changed_iff, State.current, Instr.tick.injEq]
    constructor
    · rintro ⟨hfading, hmoved⟩
      exact ⟨sel, now, ⟨rfl, rfl⟩, hfading, hbank ▸ hmoved⟩
    · rintro ⟨_, _, ⟨rfl, rfl⟩, hfading, hmoved⟩
      exact ⟨hfading, hbank ▸ hmoved⟩
  all_goals simp [changedBit]

/-- Settles O13, by cases on what the word does: it decodes to nothing, is out of range, or has its effect; each answers
`responseWord` with its own result bits and error. -/
theorem responseWordHasItsFields : Obligations.ResponseWordHasItsFields := by
  intro s t w rest hinbox hstep
  rw [step_command hinbox] at hstep
  cases hdecode : decode w with
  | error e =>
    rw [runWord_error _ hdecode] at hstep
    injection hstep with ht
    subst ht
    exact exists_response_with_fields (changed := false) (flushed := false) (err := 0b10) rfl
      (by decide) (by simp) (by simp) (by simp) (by simp) (by simp)
  | ok i =>
    rw [runWord_ok _ hdecode] at hstep
    simp only [Except.ok.injEq]
    obtain ⟨hw, rfl⟩ | ⟨hw, -, rfl⟩ := exec_next_cases hstep
    · have hflushed : ¬ ((∃ now, i = .flush now ∧ s.lastUpdateTime.toNat + s.cfg.minUpdateInterval ≤ now.toNat) ∨
          ∃ now, i = .init now) := by
        rintro (⟨now, rfl, -⟩ | ⟨now, rfl⟩) <;> cases hw
      refine exists_response_with_fields (changed := false) (flushed := false) (err := 0b01) rfl
        (by decide) (by simp) (by simpa using hflushed) (iff_of_false Bool.false_ne_true ?_) (by simp) (by simpa using hw)
      rintro ⟨sel, now, rfl, hsel, -⟩
      simp [Instr.wellFormed, hsel] at hw
    · refine exists_response_with_fields (effect_responses _ _) (by decide) (by simp) (flushedBit_iff _ _)
        ((changedBit_iff _ _).trans ⟨?_, ?_⟩) (by simp) (iff_of_false (by decide) (by rintro ⟨_, rfl, hout⟩; simp [hw] at hout))
      · rintro ⟨sel, now, rfl, hmoved⟩
        exact ⟨sel, now, rfl, by simpa [Instr.wellFormed] using hw, hmoved⟩
      · rintro ⟨sel, now, hi, -, hmoved⟩
        exact ⟨sel, now, hi, hmoved⟩

end Sys2Proof.Machine
end

section
/-! The statements of 40_fade_engine: START_FADE, TICK and FE_CLEAR in full, and the arithmetic laws of a fade. -/

namespace Sys2Proof.Machine

variable {s t : State} {f : Fader} {m n now : Time}

/-! ### The three commands, in range (R110) -/

/-- A fader command in range reaches its own bank alone (10_state R22, 41_led_driver R140). -/
theorem effect_onlyBank {i : Instr} {e : Nat} (hf : i.fader? = some e) (s : State) : s.OnlyBank (effect i s) e := by
  obtain ⟨hcfg, herr, hinbox, -, -⟩ := effect_rest i s
  refine ⟨fun e' hne => effect_other_bank s ?_, effect_driver s (by simp [hf]), hcfg, herr, hinbox⟩
  rw [hf]
  exact fun h => hne (Option.some.inj h).symm

/-- An accepted command answers its result bits and takes its time. -/
theorem effect_answered (i : Instr) (s : State) :
    s.Answered (effect i (s.seen i.now?)) (responseWord (changedBit i s) (flushedBit i s) 0) i.now? := by
  have hresponse := effect_responses i (s.seen i.now?)
  have hbits : changedBit i (s.seen i.now?) = changedBit i s ∧ flushedBit i (s.seen i.now?) = flushedBit i s := by
    cases i <;> exact ⟨rfl, rfl⟩
  rw [hbits.1, hbits.2] at hresponse
  exact ⟨hresponse, (effect_rest i (s.seen i.now?)).2.2.2.1⟩

/-- A command in time leaves no earlier time than it found (00_scope R9). -/
theorem timeSeen_le_effect {i : Instr} (hintime : ∀ now, i.now? = some now → s.timeSeen ≤ now) :
    s.timeSeen ≤ (effect i (s.seen i.now?)).timeSeen := by
  rw [(effect_answered i s).2]
  cases hnow : i.now? with
  | none => exact BitVec.le_refl _
  | some now => exact hintime now hnow

/-- The response word of a command that sent no frame and raised no error (30_encoding R90). -/
theorem responseWord_unflushed (changed : Bool) : responseWord changed false 0 = if changed then 0x04 else 0x00 := by
  cases changed <;> decide

/-- What START_FADE in range does, its end time in range: the bank, the frame, the response (R111). -/
theorem exec_startFade_spec {sel : Sel} (hsel : sel.toNat < s.cfg.p) (htime : s.timeSeen ≤ now) (target : Color)
    {fade hold : Dur} (hend : holdEnd s.cfg now fade hold ≤ 2 ^ 32 - 1) :
    ∃ t, exec (.startFade sel now target fade hold) s = .next t ∧
      t.fader sel.toNat = (s.fader sel.toNat).start s.cfg now target fade hold ∧
      s.OnlyBank t sel.toNat ∧ s.Answered t 0x00 (some now) :=
  ⟨_, exec_startFade_ok hsel htime hend, effect_startFade_fader .., effect_onlyBank rfl (s.seen (some now)),
    responseWord_ok.1 ▸ effect_answered (.startFade sel now target fade hold) s⟩

/-- What TICK in range and in time does: the bank, the frame, the response (R112). -/
theorem exec_tick_spec {sel : Sel} (hsel : sel.toNat < s.cfg.p) (htime : s.timeSeen ≤ now) :
    ∃ t, exec (.tick sel now) s = .next t ∧ t.fader sel.toNat = ((s.fader sel.toNat).tick now).1 ∧
      s.OnlyBank t sel.toNat ∧
      s.Answered t (if ((s.fader sel.toNat).tick now).2 then 0x04 else 0x00) (some now) :=
  ⟨_, exec_tick_ok hsel htime, effect_tick_fader .., effect_onlyBank rfl (s.seen (some now)),
    responseWord_unflushed _ ▸ effect_answered (.tick sel now) s⟩

/-- The bank FE_CLEAR leaves. -/
theorem effect_feClear_fader (s : State) (sel : Sel) (n : Option Time) :
    (effect (.feClear sel) (s.seen n)).fader sel.toNat = Fader.reset :=
  ((s.seen n).fader_setFader sel.toNat sel.toNat Fader.reset).trans (if_pos rfl)

/-- What FE_CLEAR in range does: the bank, the frame, the response (R113). -/
theorem exec_feClear_spec {sel : Sel} (hsel : sel.toNat < s.cfg.p) :
    ∃ t, exec (.feClear sel) s = .next t ∧ t.fader sel.toNat = Fader.reset ∧
      s.OnlyBank t sel.toNat ∧ s.Answered t 0x00 none :=
  ⟨effect (.feClear sel) s, by simp only [exec, execFeClear, onFader_in hsel, effect],
    effect_feClear_fader s sel none, effect_onlyBank rfl s, responseWord_ok.1 ▸ effect_answered (.feClear sel) s⟩

/-- START_FADE and then a TICK of the same bank: the bank the TICK leaves. -/
theorem exec_startFade_tick {sel : Sel} {t0 t1 : Time} (hsel : sel.toNat < s.cfg.p) (htime : s.timeSeen ≤ t0) (hle : t0 ≤ t1)
    (target : Color) {fade hold : Dur} (hend : holdEnd s.cfg t0 fade hold ≤ 2 ^ 32 - 1) :
    ∃ t u, exec (.startFade sel t0 target fade hold) s = .next t ∧ exec (.tick sel t1) t = .next u ∧
      u.fader sel.toNat = (((s.fader sel.toNat).start s.cfg t0 target fade hold).tick t1).1 := by
  obtain ⟨t, hstart, hbank, ⟨-, -, hcfg, -⟩, -, hseen⟩ := exec_startFade_spec hsel htime target hend
  obtain ⟨u, htick, hbank', -⟩ := exec_tick_spec (s := t) (now := t1) (hcfg ▸ hsel) (hseen ▸ hle)
  exact ⟨t, u, hstart, htick, hbank ▸ hbank'⟩

/-- A command out of range raises `OutOfRange`: the next state written out (60_exceptions R232, R233). -/
theorem exec_out_eq_next {i : Instr} (hw : i.wellFormed s.cfg = false) :
    exec i s = .next { s with err := s.err ||| 0b01, responses := 0x01 :: s.responses } := by
  rw [exec_out hw, raise_outOfRange]

/-! ### TICK by phase (R112) -/

theorem Fader.tick_of_idle (h : f.active = false) (now : Time) : f.tick now = (f.clampAcc, false) := by
  simp [Fader.tick, Fader.phase_idle h]

theorem Fader.tick_of_fading (h : f.active = true) (h1 : now < f.fadeEndTime) :
    f.tick now = (f.advance now, decide ((f.advance now).current ≠ f.current)) := by
  simp [Fader.tick, Fader.phase_fading h h1, Fader.clampAcc_advance]

theorem Fader.tick_of_holding (h : f.active = true) (h1 : f.fadeEndTime ≤ now) (h2 : now < f.holdEndTime) :
    f.tick now = (f.snap, false) := by
  simp [Fader.tick, Fader.phase_holding h h1 h2, Fader.clampAcc_snap]

theorem Fader.tick_of_expired (h : f.active = true) (h1 : f.fadeEndTime ≤ now) (h2 : f.holdEndTime ≤ now) :
    f.tick now = (f.retire.clampAcc, false) := by
  simp [Fader.tick, Fader.phase_expired h h1 h2]

/-- TICK never writes the target, the slope or the end times. -/
theorem Fader.tick_frame (f : Fader) (now : Time) :
    (f.tick now).1.target = f.target ∧ (f.tick now).1.slope = f.slope ∧
      (f.tick now).1.fadeEndTime = f.fadeEndTime ∧ (f.tick now).1.holdEndTime = f.holdEndTime := by
  obtain ⟨-, heq⟩ | ⟨-, -, heq⟩ | ⟨-, -, -, heq⟩ | ⟨-, -, -, heq⟩ := f.tick_cases now <;> rw [heq] <;>
    exact ⟨rfl, rfl, rfl, rfl⟩

/-- Settles O24: the frame from `exec_tick_spec`, the bank from the phase's equation. -/
theorem tickEvaluatesTheFader : Obligations.TickEvaluatesTheFader := by
  refine ⟨fun w hrsvd hopcode => decode_eq_ok_iff.2 ⟨hrsvd, hopcode, rfl⟩, ?_⟩
  rintro s sel now f rfl
  refine ⟨fun hout => exec_out_eq_next (by simpa [Instr.wellFormed] using hout), fun hsel htime => ?_⟩
  obtain ⟨t, hexec, hbank, honly, hanswer⟩ := exec_tick_spec hsel htime
  obtain ⟨htarget, hslope, hfadeEnd, hholdEnd⟩ := (s.fader sel.toNat).tick_frame now
  refine ⟨t, _, hexec, hbank.symm, honly, htarget, hslope, hfadeEnd, hholdEnd,
    fun ha => ?_, fun ha h1 => ?_, fun ha h1 h2 => ?_, fun ha h1 h2 => ?_⟩
  · rw [Fader.tick_of_idle ha] at hanswer ⊢
    exact ⟨fun c => Fader.clampAcc_acc _ c, rfl, ha, hanswer⟩
  · rw [Fader.tick_of_fading ha h1] at hanswer ⊢
    exact ⟨fun c => Fader.advance_acc _ now c, rfl, ha, by simpa using hanswer⟩
  · rw [Fader.tick_of_holding ha h1 h2] at hanswer ⊢
    exact ⟨fun c => Fader.snap_acc _ c, rfl, ha, hanswer⟩
  · rw [Fader.tick_of_expired ha h1 h2] at hanswer ⊢
    exact ⟨fun c => Fader.clampAcc_acc _ c, rfl, rfl, hanswer⟩

/-- Settles O25: the final clamp is the identity on a bank within range, so the idle branch writes the bank it read. -/
theorem idleTickFreezesTheBank : Obligations.IdleTickFreezesTheBank := by
  intro s sel now hsel htime hidle hacc
  obtain ⟨t, hexec, hbank, ⟨hother, hdriver, hrest⟩, hanswer⟩ := exec_tick_spec hsel htime
  rw [Fader.tick_of_idle hidle] at hbank hanswer
  rw [Fader.clampAcc_of_le hacc] at hbank
  refine ⟨t, hexec, fun e => ?_, hdriver, hrest, hanswer⟩
  by_cases he : e = sel.toNat
  · rw [he, hbank]
  · exact hother e he

/-- TICK of the bank a TICK at the same time left: the bank written is the bank read, and no change is answered (R119). -/
theorem effect_tick_effect_tick (s : State) (sel : Sel) (now : Time) :
    effect (.tick sel now) (effect (.tick sel now) s) = (effect (.tick sel now) s).respond false false := by
  have hbank : (effect (.tick sel now) s).fader sel.toNat = ((s.fader sel.toNat).tick now).1 :=
    effect_tick_fader s sel now none
  have hwritten : (effect (.tick sel now) s).setFader sel.toNat ((s.fader sel.toNat).tick now).1 = effect (.tick sel now) s :=
    congrArg (State.respond · _ false) (s.setFader_setFader _ _ _)
  conv_lhs => rw [effect, hbank, Fader.tick_tick, hwritten]

/-- Settles O26: the second TICK is in time, and answers `0x00` on the state the first one left. -/
theorem tickTwiceIsTickOnce : Obligations.TickTwiceIsTickOnce := by
  intro s sel now hsel htime
  refine ⟨_, exec_tick_ok hsel htime, ?_⟩
  calc
    _ = .next (effect (.tick sel now) (effect (.tick sel now) (s.seen (some now)))) :=
      exec_tick_ok (s := effect (.tick sel now) (s.seen (some now))) hsel (BitVec.le_refl now)
    _ = .next ((effect (.tick sel now) (s.seen (some now))).respond false false) := by rw [effect_tick_effect_tick]
    _ = _ := by rw [State.respond, responseWord_ok.1]

/-! ### Movement toward a target (R115, R120) -/

theorem betweenZeroAnd_tdiv (a : Int) {b : Int} (hb : 1 ≤ b) : BetweenZeroAnd (tdiv a b * b) a := by
  obtain ⟨-, -, -, hpos, hneg, hle, hge⟩ := tdiv_bounds a hb
  obtain h | h := le_total 0 a
  · exact .inl ⟨mul_nonneg (hpos h) (by omega), hle h⟩
  · exact .inr ⟨hge h, mul_nonpos_of_nonpos_of_nonneg (hneg h) (by omega)⟩

/-- A movement of `b` milliseconds that does not pass its target, stopped after `a` of them: neither the part done nor the
part left passes it. -/
theorem BetweenZeroAnd.split {v a b y : Int} (h : BetweenZeroAnd (v * b) y) (ha : 0 ≤ a) (hab : a ≤ b) :
    BetweenZeroAnd (v * a) y ∧ BetweenZeroAnd (v * (b - a)) (y - v * a) := by
  unfold BetweenZeroAnd at h ⊢
  rw [mul_sub]
  obtain hv | hv := le_total 0 v
  · have hdone := mul_nonneg hv ha
    have hleft := mul_le_mul_of_nonneg_left hab hv
    omega
  · have hdone := mul_nonpos_of_nonpos_of_nonneg hv ha
    have hleft := mul_le_mul_of_nonpos_left hab hv
    omega

/-- A lane that moves toward its target and not past it is not clamped (R120). -/
theorem Fader.advance_acc_of_toward {c : Channel} {v : Chan} (hacc : accVal (f.acc.get c) ≤ qMax)
    (h : BetweenZeroAnd ((f.slope.get c).toInt * f.elapsed now) (qOf v.toNat - accVal (f.acc.get c))) :
    accVal ((f.advance now).acc.get c) = accVal (f.acc.get c) + (f.slope.get c).toInt * f.elapsed now := by
  rw [Fader.advance_acc, wide]
  have hacc0 := accVal_nonneg (f.acc.get c)
  have hv0 := qOf_chan_nonneg v
  have hv := qOf_chan_le v
  unfold BetweenZeroAnd at h
  exact clampQ_of_mem (by omega) (by omega)

/-! ### Banks on course (R120) -/

/-- A bank on course, ticked in its Fading window: the movement to `now` and the one left after it do not pass the target. -/
theorem Fader.OnCourse.split (h : f.OnCourse n) (hinv : f.Inv now) (hn : n ≤ now) (ha : f.active = true)
    (hfading : now < f.fadeEndTime) (c : Channel) :
    BetweenZeroAnd ((f.slope.get c).toInt * f.elapsed now) (qOf (f.target.get c).toNat - accVal (f.acc.get c)) ∧
      BetweenZeroAnd ((f.slope.get c).toInt * ((f.fadeEndTime.toNat : Int) - 1 - now.toNat))
        (qOf (f.target.get c).toNat - accVal (f.acc.get c) - (f.slope.get c).toInt * f.elapsed now) := by
  obtain ⟨-, -, hlast⟩ := hinv.times_of_active ha
  have hlast' := BitVec.le_def.1 hlast
  have hfading' := BitVec.lt_def.1 hfading
  have hsplit := (h ha (Std.lt_of_le_of_lt hn hfading) c).split (a := f.elapsed now)
    (by unfold Fader.elapsed; omega) (by unfold Fader.elapsed; omega)
  have hremaining : (f.fadeEndTime.toNat : Int) - 1 - f.lastTickTime.toNat - f.elapsed now =
      f.fadeEndTime.toNat - 1 - now.toNat := by unfold Fader.elapsed; omega
  rwa [hremaining] at hsplit

theorem Fader.OnCourse.mono (h : f.OnCourse m) (hmn : m ≤ n) : f.OnCourse n :=
  fun ha hn => h ha (Std.lt_of_le_of_lt hmn hn)

theorem Fader.onCourse_of_idle (h : f.active = false) (n : Time) : f.OnCourse n := by
  intro ha
  simp [h] at ha

/-- With `MIN_DUR = 1` the slope `tdiv(delta, D)` is added at most `D` times before the nominal end, and does not pass the target. -/
theorem Fader.start_onCourse {c : Config} {fade hold : Dur} (f : Fader) (target : Color) (hmin : c.minDur = 1)
    (hend : holdEnd c now fade hold ≤ 2 ^ 32 - 1) : (f.start c now target fade hold).OnCourse now := by
  intro _ _ ch
  have hwindow : ((f.start c now target fade hold).fadeEndTime.toNat : Int) - 1 - now.toNat = max fade.toInt c.minDur := by
    rw [(f.start_times target hend).1, fadeEnd_val]
    omega
  have htoward := betweenZeroAnd_tdiv (qOf (target.get ch).toNat - accVal (f.acc.get ch)) (b := max fade.toInt c.minDur)
    (by omega)
  rw [← Fader.start_slope f c now target fade hold, ← hwindow] at htoward
  exact htoward

/-- TICK keeps a bank on course: while Fading the clamp does not act, and in no other phase does the premise hold. -/
theorem Fader.OnCourse.tick (h : f.OnCourse n) (hinv : f.Inv now) (hn : n ≤ now) : (f.tick now).1.OnCourse now := by
  obtain ⟨ha, heq⟩ | ⟨ha, hfading, heq⟩ | ⟨-, hended, -, heq⟩ | ⟨-, -, -, heq⟩ := f.tick_cases now <;> rw [heq]
  · exact Fader.onCourse_of_idle (f := f.clampAcc) ha now
  · intro _ _ c
    obtain ⟨hdone, hleft⟩ := h.split hinv hn ha hfading c
    rw [Fader.advance_acc_of_toward (hinv.accLe c) hdone, ← Int.sub_sub]
    exact hleft
  · exact fun _ hfading => absurd hfading (BitVec.not_lt.2 hended)
  · exact Fader.onCourse_of_idle rfl now

/-- Only the banks decide whether they are on course, and a later time asks no more. -/
theorem State.OnCourse.of_sameFaders (h : s.OnCourse) (hbanks : s.SameFaders t) (htime : s.timeSeen ≤ t.timeSeen) :
    t.OnCourse := by
  intro e
  rw [hbanks e]
  exact (h e).mono htime

/-- One bank replaced by a bank on course, the others as before. -/
theorem State.OnCourse.of_otherFaders {e : Nat} (h : s.OnCourse) (hbank : (t.fader e).OnCourse t.timeSeen)
    (hother : ∀ e', e' ≠ e → t.fader e' = s.fader e') (htime : s.timeSeen ≤ t.timeSeen) : t.OnCourse := by
  intro e'
  by_cases he : e' = e
  · exact he ▸ hbank
  · rw [hother e' he]
    exact (h e').mono htime

theorem State.onCourse_of_no_faders (h : s.faders = []) : s.OnCourse := by
  intro e
  rw [State.fader, h]
  exact Fader.onCourse_of_idle rfl _

/-- With `MIN_DUR = 1` a command that completes keeps every bank on course: the fader commands by what they leave in their bank,
the driver commands because they leave every bank. -/
theorem State.OnCourse.exec {i : Instr} (h : s.OnCourse) (hmin : s.cfg.minDur = 1) (hinv : s.Inv)
    (hexec : exec i s = .next t) : t.OnCourse := by
  obtain ⟨-, rfl⟩ | ⟨hw, hinside, rfl⟩ := exec_next_cases hexec
  · exact h
  obtain ⟨hintime, hend⟩ := hinside hw
  have htime := timeSeen_le_effect hintime
  cases i with
  | startFade sel now target fade hold =>
    refine h.of_otherFaders (e := sel.toNat) ?_ (effect_onlyBank rfl (s.seen (some now))).1 htime
    rw [effect_startFade_fader]
    exact Fader.start_onCourse _ target hmin (hend _ _ _ _ _ rfl)
  | tick sel now =>
    refine h.of_otherFaders (e := sel.toNat) ?_ (effect_onlyBank rfl (s.seen (some now))).1 htime
    rw [effect_tick_fader]
    exact (h sel.toNat).tick ((hinv.fader sel.toNat).mono htime) htime
  | feClear sel =>
    refine h.of_otherFaders (e := sel.toNat) ?_ (effect_onlyBank rfl s).1 htime
    rw [effect_feClear_fader]
    exact Fader.onCourse_of_idle rfl _
  | write | writeAll | flush | blank | unblank | init =>
    exact h.of_sameFaders (fun e => State.fader_congr (effect_faders (s.seen _) rfl) e) htime

/-- Settles O19, by cases on what the step did: it waited, reset, raised IllegalCommand, or ran a command. -/
theorem withUnitFloorEveryStepKeepsBanksOnCourse : Obligations.WithUnitFloorEveryStepKeepsBanksOnCourse := by
  intro s t hmin hinv h hstep
  obtain ⟨-, rfl⟩ | ⟨rest, -, rfl⟩ | ⟨w, rest, e, -, -, rfl⟩ | ⟨w, rest, i, -, -, hexec⟩ := step_cases hstep
  · exact h
  · exact State.onCourse_of_no_faders rfl
  · exact h
  · exact State.OnCourse.exec (s := { s with inbox := rest }) h hmin (hinv.takeInbox rest) hexec

/-- Settles O20: the movement to `now` is toward the target and not past it, so the clamp does not act on it. -/
theorem onCourseTickNeverPassesItsTarget : Obligations.OnCourseTickNeverPassesItsTarget := by
  refine ⟨fun s sel now hinv hcourse hsel htime ha hfading => ?_, fun c sh la => State.onCourse_of_no_faders rfl⟩
  obtain ⟨t, hexec, hbank, -⟩ := exec_tick_spec hsel htime
  refine ⟨t, hexec, fun c => ?_⟩
  have hfader := (hinv.fader sel.toNat).mono htime
  have hdone := ((hcourse sel.toNat).split hfader htime ha hfading c).1
  rw [hbank, Fader.tick_of_fading ha hfading, Fader.advance_acc_of_toward (hfader.accLe c) hdone]
  exact ⟨rfl, by rwa [add_sub_cancel_left]⟩

/-! ### START_FADE: slope and windows (R111, R114, R115) -/

/-- Settles O21: the frame from `exec_startFade_spec`, the slope and the end times from the bank START_FADE leaves. -/
theorem startFadeBeginsAFade : Obligations.StartFadeBeginsAFade := by
  refine ⟨fun w hrsvd hopcode => decode_eq_ok_iff.2 ⟨hrsvd, hopcode, rfl⟩, ?_⟩
  rintro s sel now target fade hold D H rfl rfl
  have hholdEnd := holdEnd_val s.cfg now fade hold
  refine ⟨fun hout => exec_out_eq_next (by simpa [Instr.wellFormed] using hout), fun hsel htime hfits => ?_,
    fun hsel htime hbeyond => ?_⟩
  · have hend : holdEnd s.cfg now fade hold ≤ 2 ^ 32 - 1 := by omega
    obtain ⟨t, hexec, hbank, honly, hanswer⟩ := exec_startFade_spec hsel htime target hend
    obtain ⟨hfadeTime, hholdTime⟩ := (s.fader sel.toNat).start_times target hend
    refine ⟨t, hexec, ?_⟩
    rw [hbank, hfadeTime, hholdTime, fadeEnd_val]
    exact ⟨Fader.start_slope _ _ _ _ _ _, rfl, rfl, hholdEnd, rfl, rfl, rfl, honly, hanswer⟩
  · rw [exec_in_time (by simpa [Instr.wellFormed] using hsel) (by rintro _ ⟨⟩; exact htime)]
    exact if_neg (by omega)

/-- The phase of an active bank is decided by its end times alone (10_state R32). -/
theorem Fader.phase_iff_of_active (h : f.active = true) (u : Time) :
    (f.phase u = .fading ↔ u < f.fadeEndTime) ∧ (f.phase u = .holding ↔ f.fadeEndTime ≤ u ∧ u < f.holdEndTime) ∧
      (f.phase u = .expired ↔ f.fadeEndTime ≤ u ∧ f.holdEndTime ≤ u) := by
  by_cases hfading : u < f.fadeEndTime
  · simp [Fader.phase_fading h hfading, hfading, BitVec.not_le.2 hfading]
  · have hended := BitVec.not_lt.1 hfading
    by_cases hholding : u < f.holdEndTime
    · simp [Fader.phase_holding h hended hholding, hfading, hended, hholding, BitVec.not_le.2 hholding]
    · have hexpired := BitVec.not_lt.1 hholding
      simp [Fader.phase_expired h hended hexpired, hfading, hended, hholding, hexpired]

/-- Settles O22: the phase of an active bank is decided by its end times, which are the sums of R111 and in order. -/
theorem startFadeOpensItsWindows : Obligations.StartFadeOpensItsWindows := by
  rintro s sel t0 target fade hold D H m rfl rfl rfl hsel htime hfits
  have hfadeEnd := fadeEnd_val s.cfg t0 fade
  have hholdEnd := holdEnd_val s.cfg t0 fade hold
  have hD := flooredDur_bounds s.cfg fade
  have hH := flooredDur_bounds s.cfg hold
  have hDval := flooredDur_val s.cfg fade
  have hHval := flooredDur_val s.cfg hold
  have hend : holdEnd s.cfg t0 fade hold ≤ 2 ^ 32 - 1 := by omega
  obtain ⟨t, hexec, hbank, -⟩ := exec_startFade_spec hsel htime target hend
  obtain ⟨hfadeTime, hholdTime⟩ := (s.fader sel.toNat).start_times target hend
  refine ⟨t, hexec, by omega, by omega, by omega, by omega, by omega, by omega, ?_, fun u _ => ?_⟩
  · rw [hbank, BitVec.lt_def, hfadeTime, hholdTime]
    omega
  · rw [hbank]
    obtain ⟨hfading, hholding, hexpired⟩ :=
      Fader.phase_iff_of_active (f := (s.fader sel.toNat).start s.cfg t0 target fade hold) rfl u
    rw [hfading, hholding, hexpired]
    simp only [BitVec.lt_def, BitVec.le_def, hfadeTime, hholdTime]
    omega

/-- Settles O23: the stored slope is the truncated quotient, whose bounds are those of `tdiv`. -/
theorem slopeRoundsTowardZero : Obligations.SlopeRoundsTowardZero := by
  rintro s sel now target fade hold D rfl hsel htime hend hacc
  obtain ⟨t, hexec, hbank, -⟩ := exec_startFade_spec hsel htime target hend
  refine ⟨t, hexec, ?_⟩
  rintro c m delta rfl rfl
  rw [hbank, Fader.start_slope]
  have hdur : (1 : Int) ≤ max fade.toInt s.cfg.minDur := by have := Config.minDur_pos s.cfg; omega
  have hgap := delta_le_qMax (target.get c) (hacc c)
  obtain ⟨hreach, hshort, hle, hpos, hneg, -, -⟩ :=
    tdiv_bounds (qOf (target.get c).toNat - accVal ((s.fader sel.toNat).acc.get c)) hdur
  exact ⟨rfl, hle.trans hgap, hreach, hshort, fun h => hpos h.le, fun h => hneg h.le,
    fun h => le_antisymm (hneg h.le) (hpos h.ge)⟩

/-! ### The advance (R116) -/

/-- Two advances add up to one if the first is not clamped. -/
theorem Fader.advance_advance {a : Time} (b : Time)
    (h : ∀ c, 0 ≤ wide (f.elapsed a) (f.acc.get c) (f.slope.get c) ∧
      wide (f.elapsed a) (f.acc.get c) (f.slope.get c) ≤ qMax) :
    (f.advance a).advance b = f.advance b := by
  have hacc : ((f.advance a).advance b).acc = (f.advance b).acc := accLanes_ext fun c => by
    obtain ⟨hnonneg, hle⟩ := h c
    have hsum : wide ((f.advance a).elapsed b) ((f.advance a).acc.get c) (f.slope.get c) =
        wide (f.elapsed b) (f.acc.get c) (f.slope.get c) := by
      rw [wide, Fader.advance_acc, clampQ_of_mem hnonneg hle]
      simp only [wide, Fader.elapsed, Fader.advance]
      ring
    rw [Fader.advance_acc, Fader.advance_acc, ← hsum]
    rfl
  exact congrArg (fun acc => { f.advance b with acc := acc }) hacc

/-- Settles O27: each TICK is Fading and advances the bank, and the two advances add up to one. -/
theorem fadingTicksAddUp : Obligations.FadingTicksAddUp := by
  rintro s sel a b f rfl hsel htime hab ha hfading hunclamped
  obtain ⟨t, hexec, hbank, ⟨-, -, hcfg, -⟩, -, hseen⟩ := exec_tick_spec hsel htime
  obtain ⟨u, hexec', hbank', -⟩ := exec_tick_spec (s := t) (now := b) (hcfg ▸ hsel) (hseen ▸ hab)
  obtain ⟨v, hexec'', hbank'', -⟩ := exec_tick_spec hsel (BitVec.le_trans htime hab)
  refine ⟨t, u, v, hexec, hexec', hexec'', ?_⟩
  rw [hbank', hbank, hbank'', Fader.tick_of_fading ha (Std.lt_of_le_of_lt hab hfading),
    Fader.tick_of_fading (f := (s.fader sel.toNat).advance a) ha hfading, Fader.tick_of_fading ha hfading]
  exact Fader.advance_advance b hunclamped

/-- Before the end of the Fading window a slope has moved its lane by less than `2 QMAX`. -/
theorem Fader.Inv.abs_slope_mul_lt (h : f.Inv n) {dt : Int} (h0 : 0 ≤ dt)
    (hdt : dt < (f.fadeEndTime.toNat : Int) - f.lastTickTime.toNat) (c : Channel) :
    |(f.slope.get c).toInt * dt| < 2 * qMax := by
  have hreach := h.reach c
  rw [abs_mul, abs_of_nonneg h0]
  obtain hzero | hpos := (abs_nonneg (f.slope.get c).toInt).eq_or_lt
  · rw [← hzero, zero_mul]
    decide
  · exact (mul_lt_mul_of_pos_left hdt hpos).trans_le hreach

/-- Settles O28: fewer milliseconds have passed than the slope's reach allows for. -/
theorem fadingSumStaysInRange : Obligations.FadingSumStaysInRange := by
  intro s e now hinv htime ha hfading
  have hfader := hinv.fader e
  obtain ⟨-, -, hlast⟩ := hfader.times_of_active ha
  have hlast' := BitVec.le_def.1 (BitVec.le_trans hlast htime)
  have hfading' := BitVec.lt_def.1 hfading
  have helapsed : 0 ≤ (now.toNat : Int) - (s.fader e).lastTickTime.toNat := by omega
  refine ⟨helapsed, fun c => ?_⟩
  have hacc0 := accVal_nonneg ((s.fader e).acc.get c)
  have hacc := hfader.accLe c
  have hmove := abs_lt.1 (hfader.abs_slope_mul_lt helapsed (by omega) c)
  omega

/-! ### START_FADE and one TICK (R121, R112 (c)) -/

/-- The nominal end of a fade lies in its Fading window, and the slope has then been added `D` times. -/
theorem Fader.tick_start_acc {cfg : Config} {t0 t1 : Time} {target : Color} {fade hold : Dur} {c : Channel}
    (hend : holdEnd cfg t0 fade hold ≤ 2 ^ 32 - 1) (hnominal : (t1.toNat : Int) = t0.toNat + max fade.toInt cfg.minDur)
    (hacc : accVal (f.acc.get c) ≤ qMax) :
    accVal (((f.start cfg t0 target fade hold).tick t1).1.acc.get c) = accVal (f.acc.get c) +
      tdiv (qOf (target.get c).toNat - accVal (f.acc.get c)) (max fade.toInt cfg.minDur) * max fade.toInt cfg.minDur := by
  have hmin := Config.minDur_pos cfg
  have hfading : t1 < (f.start cfg t0 target fade hold).fadeEndTime := by
    have hfadeEnd := fadeEnd_val cfg t0 fade
    rw [BitVec.lt_def, (f.start_times target hend).1]
    omega
  have helapsed : (f.start cfg t0 target fade hold).elapsed t1 = max fade.toInt cfg.minDur := by
    simp only [Fader.elapsed, Fader.start]
    omega
  have htoward := betweenZeroAnd_tdiv (qOf (target.get c).toNat - accVal (f.acc.get c)) (b := max fade.toInt cfg.minDur)
    (by omega)
  rw [← Fader.start_slope f cfg t0 target fade hold, ← helapsed] at htoward ⊢
  rw [Fader.tick_of_fading rfl hfading]
  exact Fader.advance_acc_of_toward hacc htoward

/-- What truncation leaves of a distance: less than the divisor, on the distance's own side (R115). -/
theorem sub_tdiv_mul_bounds (a : Int) {b : Int} (hb : 1 ≤ b) :
    |a - tdiv a b * b| < b ∧ BetweenZeroAnd (a - tdiv a b * b) a := by
  obtain ⟨-, hshort, -⟩ := tdiv_bounds a hb
  obtain ⟨h0, hle⟩ | ⟨hge, h0⟩ := betweenZeroAnd_tdiv a hb
  · rw [abs_of_nonneg h0, abs_of_nonneg (by omega)] at hshort
    exact ⟨by rwa [abs_of_nonneg (by omega)], .inl ⟨by omega, by omega⟩⟩
  · rw [abs_of_nonpos h0, abs_of_nonpos (by omega)] at hshort
    exact ⟨by rw [abs_of_nonpos (by omega)]; omega, .inr ⟨by omega, by omega⟩⟩

/-- A distance in Q-units seen in the 12-bit view: the counts left are the distance rounded up (00_scope R13). -/
theorem counts_left_bounds (v : Chan) (q : Acc) :
    |(v.toNat : Int) - (intPart q).toNat| * 2 ^ 16 < |qOf v.toNat - accVal q| + 2 ^ 16 ∧
      (0 ≤ qOf v.toNat - accVal q → 0 ≤ (v.toNat : Int) - (intPart q).toNat) ∧
      (qOf v.toNat - accVal q ≤ 0 → (v.toNat : Int) - (intPart q).toNat ≤ 0) := by
  rw [intPart_val, qOf_eq]
  refine ⟨?_, by omega, by omega⟩
  obtain h | h := le_total 0 ((v.toNat : Int) * 65536 - accVal q)
  · rw [abs_of_nonneg h, abs_of_nonneg (by omega)]
    omega
  · rw [abs_of_nonpos h, abs_of_nonpos (by omega)]
    omega

/-- Settles O29: what is left is the distance's remainder by truncation, and the 12-bit view rounds it up to counts. -/
theorem fadeIsAccurateAtItsNominalEnd : Obligations.FadeIsAccurateAtItsNominalEnd := by
  rintro s sel t0 t1 target fade hold D rfl hsel htime hend hnominal hacc
  have hdur : (1 : Int) ≤ max fade.toInt s.cfg.minDur := by have := Config.minDur_pos s.cfg; omega
  have hle : t0 ≤ t1 := BitVec.le_def.2 (by omega)
  obtain ⟨t, u, hstart, htick, hbank⟩ := exec_startFade_tick hsel htime hle target hend
  refine ⟨t, u, hstart, htick, ?_⟩
  rintro c delta left gap hdelta hleft hgap
  obtain ⟨hcounts, hpos, hneg⟩ := counts_left_bounds (target.get c) ((u.fader sel.toNat).acc.get c)
  rw [State.current, Fader.current, Lanes.get_map] at hgap
  rw [← hgap, ← hleft] at hcounts hpos hneg
  have hremainder : left = delta - tdiv delta (max fade.toInt s.cfg.minDur) * max fade.toInt s.cfg.minDur := by
    rw [hleft, hbank, Fader.tick_start_acc hend hnominal (hacc c), ← hdelta]
    omega
  obtain ⟨hshort, htoward⟩ := hremainder ▸ sub_tdiv_mul_bounds delta hdur
  unfold BetweenZeroAnd at htoward ⊢
  exact ⟨hshort, htoward, by omega, by omega, fun h => hpos (by omega), fun h => hneg (by omega)⟩

/-- Settles O30: the TICK finds the bank expired, and only clears `active`. -/
theorem untickedHoldNeverSnaps : Obligations.UntickedHoldNeverSnaps := by
  intro s sel t0 t1 target fade hold hsel htime hlate hacc
  have hend : holdEnd s.cfg t0 fade hold ≤ 2 ^ 32 - 1 := by have := t1.isLt; omega
  have hfade : fadeEnd s.cfg t0 fade ≤ holdEnd s.cfg t0 fade hold := by unfold holdEnd; omega
  have hle : t0 ≤ t1 := BitVec.le_def.2 (by unfold holdEnd fadeEnd at hlate; omega)
  obtain ⟨t, u, hstart, htick, hbank⟩ := exec_startFade_tick hsel htime hle target hend
  obtain ⟨hfadeTime, hholdTime⟩ := (s.fader sel.toNat).start_times target hend
  rw [Fader.tick_of_expired rfl (BitVec.le_def.2 (by omega)) (BitVec.le_def.2 (by omega)),
    Fader.clampAcc_of_le (f := ((s.fader sel.toNat).start ..).retire) hacc] at hbank
  refine ⟨t, u, hstart, htick, ?_⟩
  rw [State.current, State.active, State.target, hbank]
  exact ⟨rfl, rfl, rfl⟩

/-! ### FE_CLEAR (R113) -/

/-- Settles O31, by `exec_feClear_spec`. -/
theorem feClearResetsItsBank : Obligations.FeClearResetsItsBank :=
  ⟨fun _ hrsvd hopcode => decode_eq_ok_iff.2 ⟨hrsvd, hopcode, rfl⟩, fun _ _ =>
    ⟨fun hout => exec_out_eq_next (by simpa [Instr.wellFormed] using hout), exec_feClear_spec⟩⟩

end Sys2Proof.Machine
end

section
/-! The statements of 41_led_driver: WRITE, WRITE_ALL, FLUSH, BLANK, UNBLANK and INIT in full, and the throttle. -/

namespace Sys2Proof.Machine

variable {s : State} {now : Time}

/-- A word with `rsvd` zero and a command's opcode is that command, its operands read from the word (30_encoding R83). -/
theorem readsAs_readFrom (i : Instr) : ReadsAs i.opcode i.readFrom := by
  intro w hrsvd hopcode
  have hsame : (i.readFrom w).opcode = i.opcode ∧ (i.readFrom w).readFrom w = i.readFrom w := by
    cases i <;> exact ⟨rfl, rfl⟩
  exact decode_eq_ok_iff.2 ⟨hrsvd, hopcode.trans hsame.1.symm, hsame.2⟩

/-! ### WRITE and WRITE_ALL (R141, R142) -/

theorem State.bufRead_bufWriteColor_self (ch : Channel) (p : Nat) (c : Color) :
    (s.bufWriteColor p c).bufRead ch p = c.get ch :=
  (s.bufRead_bufWriteColor ch p p c).trans (if_pos rfl)

theorem State.bufRead_bufWriteColor_other {p p' : Nat} (h : p' ≠ p) (ch : Channel) (c : Color) :
    (s.bufWriteColor p c).bufRead ch p' = s.bufRead ch p' :=
  (s.bufRead_bufWriteColor ch p p' c).trans (if_neg h)

/-- New buffers and a response without result bits leave everything else as it was. -/
theorem State.respond_newBuffers_frame (s : State) (r g b : Memory) {t : State}
    (ht : t = State.respond { s with bufR := r, bufG := g, bufB := b } false false) :
    s.SameFaders t ∧ s.SamePins t ∧ t.lastUpdateTime = s.lastUpdateTime ∧ s.SameRest t ∧ s.Answered t 0x00 none := by
  subst ht
  exact ⟨fun _ => rfl, ⟨rfl, rfl, rfl, rfl⟩, rfl, ⟨rfl, rfl, rfl⟩, rfl, rfl⟩

/-- Settles O33: in range, WRITE stores its operands at the translated index and nothing else. -/
theorem writeStoresOneColour : Obligations.WriteStoresOneColour := by
  refine ⟨readsAs_readFrom (.write 0 black), fun s sel c =>
    ⟨fun hout => exec_out_eq_next (by simpa [Instr.wellFormed] using hout), fun hsel => ?_⟩⟩
  obtain ⟨htranslation, hp⟩ := physIndex_spec s.cfg hsel
  exact ⟨_, physIndex s.cfg sel.toNat, exec_write_ok hsel c, htranslation, hp,
    State.bufRead_bufWriteColor_self .r _ c, State.bufRead_bufWriteColor_self .g _ c, State.bufRead_bufWriteColor_self .b _ c,
    fun ch _ hne => State.bufRead_bufWriteColor_other hne ch c, State.respond_newBuffers_frame s _ _ _ rfl⟩

/-- Settles O34: the loop reaches every entry in range and no other, and touches only the buffers. -/
theorem writeAllStoresOneColourEverywhere : Obligations.WriteAllStoresOneColourEverywhere := by
  refine ⟨readsAs_readFrom (.writeAll black), fun s c => ⟨(s.writeAllLeds c).respond false false, rfl, ?_, ?_, ?_⟩⟩
  · exact fun ch p hp => (s.bufRead_writeAllLeds c ch p).trans (if_pos hp)
  · exact fun ch p hp => (s.bufRead_writeAllLeds c ch p).trans (if_neg (Nat.not_lt.2 hp))
  · exact State.respond_newBuffers_frame s _ _ _ (congrArg (·.respond false false) (s.writeAllLeds_eq c))

/-! ### FLUSH (R143, R144) -/

/-- A due FLUSH from low CLK and LAT: the next state written out. -/
theorem exec_flush_due_eq (ht : s.timeSeen ≤ now) (hc : s.lines.clk = false) (hl : s.lines.lat = false)
    (hdue : s.lastUpdateTime.toNat + s.cfg.minUpdateInterval ≤ now.toNat) :
    exec (.flush now) s = .next { s with
      lastUpdateTime := now
      lines := { s.lines with data := (s.bufRead .g (s.cfg.nLed - 1)).getLsbD 0 }
      shreg := streamVal s.frameStream
      latched := streamVal s.frameStream
      pinTrace := ⟨.lat, false⟩ :: ⟨.lat, true⟩ :: (bitEvents s.lines.data s.frameStream ++ s.pinTrace)
      responses := 0x08 :: s.responses
      timeSeen := now } := by
  rw [exec_flush_due ht hdue, State.flush_eq (s := s.seen (some now)) hc hl]
  rfl

/-- A FLUSH in time that is not due: the next state written out. -/
theorem exec_flush_dropped_eq (ht : s.timeSeen ≤ now) (hearly : now.toNat < s.lastUpdateTime.toNat + s.cfg.minUpdateInterval) :
    exec (.flush now) s = .next { s with timeSeen := now, responses := 0x00 :: s.responses } := by
  rw [exec_flush_ok ht, effect, if_neg (mt (flushDue_seen_iff s now _).1 (Nat.not_le.2 hearly))]
  rfl

/-- Settles O35, by whether the interval has passed. -/
theorem flushSendsTheFrameWhenDue : Obligations.FlushSendsTheFrameWhenDue := by
  refine ⟨readsAs_readFrom (.flush 0), fun s now ht hc hl => ⟨fun hdue => ?_, exec_flush_dropped_eq ht⟩⟩
  refine ⟨_, exec_flush_due_eq ht hc hl hdue, rfl, State.holdsFrame_of_eq rfl rfl, ?_, ?_,
    fun _ _ => rfl, fun _ => rfl, ⟨rfl, rfl, rfl⟩, rfl, rfl⟩
  · simp only [hc, hl]
  · rw [State.frameEvents_eq]

/-- Settles O36: the first FLUSH leaves `last_update_time = a`, so the second is due exactly when the interval has passed. -/
theorem performedFlushesAreAnIntervalApart : Obligations.PerformedFlushesAreAnIntervalApart := by
  intro s a b ht hdue hab
  obtain ⟨t, hfirst, hupdate, hseen⟩ : ∃ t, exec (.flush a) s = .next t ∧ t.lastUpdateTime = a ∧ t.timeSeen = a :=
    ⟨_, exec_flush_due ht hdue, (s.seen (some a)).sendFrame_lastUpdateTime a,
      (s.seen (some a)).sendFrame_timeSeen a⟩
  have hcfg : t.cfg = s.cfg := exec_cfg hfirst
  rw [← hcfg]
  subst hupdate
  have htime : t.timeSeen ≤ b := hseen ▸ hab
  rcases Nat.lt_or_ge b.toNat (t.lastUpdateTime.toNat + t.cfg.minUpdateInterval) with hearly | hpassed
  · exact ⟨t, _, hfirst, exec_flush_dropped_eq htime hearly, fun h => absurd hearly (Nat.not_lt.2 h), fun _ => rfl⟩
  · refine ⟨t, _, hfirst, exec_flush_due htime hpassed, fun _ => ⟨?_, (t.seen (some b)).sendFrame_lastUpdateTime b⟩,
      fun h => absurd h (Nat.not_lt.2 hpassed)⟩
    rw [State.respond_responses, State.sendFrame_responses, responseWord_ok.2.2]
    rfl

/-! ### BLANK and UNBLANK (R147, R148) -/

/-- The BLANK line driven to a level, and the response: the next state written out. -/
theorem State.pin_blank_respond_eq (s : State) (v : Bool) :
    (s.pin .blank v).respond false false = { s with
      lines := { s.lines with blank := v }
      pinTrace := if s.lines.blank = v then s.pinTrace else ⟨.blank, v⟩ :: s.pinTrace
      responses := 0x00 :: s.responses } := by
  rw [State.pin_blank_eq]
  rfl

theorem exec_blank_eq (s : State) : exec .blank s = .next { s with
    lines := { s.lines with blank := true }
    pinTrace := if s.lines.blank then s.pinTrace else ⟨.blank, true⟩ :: s.pinTrace
    responses := 0x00 :: s.responses } :=
  congrArg _ (s.pin_blank_respond_eq true)

theorem exec_unblank_eq (s : State) : exec .unblank s = .next { s with
    lines := { s.lines with blank := false }
    pinTrace := if s.lines.blank then ⟨.blank, false⟩ :: s.pinTrace else s.pinTrace
    responses := 0x00 :: s.responses } := by
  refine (congrArg _ (s.pin_blank_respond_eq false)).trans ?_
  cases s.lines.blank <;> rfl

theorem State.ledOut_of_blanked (h : s.lines.blank = true) (p : Nat) : s.ledOut p = black := by
  simp [State.ledOut, h]

/-- Settles O37: the blank gate is closed, and every output behind it is dark. -/
theorem blankDarkensEveryLed : Obligations.BlankDarkensEveryLed :=
  ⟨readsAs_readFrom .blank, fun s => ⟨_, exec_blank_eq s, rfl, rfl, State.ledOut_of_blanked rfl, rfl,
    fun _ _ => rfl, fun _ => rfl, rfl, rfl, rfl, ⟨rfl, rfl, rfl⟩, rfl, rfl⟩⟩

/-- Settles O38: the blank gate is open, and behind it stands the latch, which UNBLANK leaves. -/
theorem unblankShowsTheLatchedFrame : Obligations.UnblankShowsTheLatchedFrame :=
  ⟨readsAs_readFrom .unblank, fun s => ⟨_, exec_unblank_eq s, rfl, rfl, State.ledOut_of_not_blanked rfl, rfl,
    fun _ _ => rfl, fun _ => rfl, rfl, rfl, rfl, ⟨rfl, rfl, rfl⟩, rfl, rfl⟩⟩

/-! ### INIT (R149) -/

theorem State.pin_low_pinTrace (s : State) (x : Line) :
    (s.pin x false).pinTrace = (if s.lines.get x then [⟨x, false⟩] else []) ++ s.pinTrace := by
  rw [State.pin_pinTrace]
  cases s.lines.get x <;> rfl

theorem State.pin_high_pinTrace (s : State) (x : Line) :
    (s.pin x true).pinTrace = (if s.lines.get x then [] else [⟨x, true⟩]) ++ s.pinTrace := by
  rw [State.pin_pinTrace]
  cases s.lines.get x <;> rfl

/-- What INIT appends before its frame, from any line levels: one event for each line that moves. -/
theorem State.configureAndBlank_pinTrace (s : State) :
    s.configureAndBlank.pinTrace =
      (if s.lines.blank then [] else [⟨.blank, true⟩]) ++ (if s.lines.lat then [⟨.lat, false⟩] else []) ++
        (if s.lines.data then [⟨.data, false⟩] else []) ++ (if s.lines.clk then [⟨.clk, false⟩] else []) ++ s.pinTrace := by
  simp only [State.configureAndBlank, State.pin_high_pinTrace, State.pin_low_pinTrace, State.pin_lines, List.append_assoc]
  rfl

/-- INIT in time: the next state written out. -/
theorem exec_init_eq (ht : s.timeSeen ≤ now) :
    exec (.init now) s = .next { s with
      lastUpdateTime := now
      lines := { clk := false, data := (s.bufRead .g (s.cfg.nLed - 1)).getLsbD 0, lat := false, blank := false }
      shreg := streamVal s.frameStream
      latched := streamVal s.frameStream
      pinTrace := ⟨.blank, false⟩ :: ⟨.lat, false⟩ :: ⟨.lat, true⟩ ::
        (bitEvents false s.frameStream ++ s.configureAndBlank.pinTrace)
      responses := 0x08 :: s.responses
      timeSeen := now } := by
  have htrace : (s.seen (some now)).configureAndBlank.pinTrace = s.configureAndBlank.pinTrace := by
    rw [State.configureAndBlank_pinTrace, State.configureAndBlank_pinTrace]
    rfl
  rw [exec_init_ok ht, effect, State.init_eq, htrace]
  rfl

/-- Settles O39: INIT configures the lines, sends the frame whatever the time since the last one, and unblanks. -/
theorem initSendsTheFrameUnthrottled : Obligations.InitSendsTheFrameUnthrottled := by
  refine ⟨readsAs_readFrom (.init 0), fun s now ht => ⟨_, exec_init_eq ht, rfl, State.holdsFrame_of_eq rfl rfl, rfl, rfl, ?_,
    fun _ _ => rfl, fun _ => rfl, ⟨rfl, rfl, rfl⟩, rfl, rfl⟩⟩
  simp only [State.frameEvents_eq, State.configureAndBlank_pinTrace, List.append_assoc]

/-! ### FLUSH and the blank gate (R143 corner case (a)) -/

/-- The state with the BLANK line at another level, as if it had always been there: no event. -/
def State.withBlank (s : State) (b : Bool) : State := { s with lines := { s.lines with blank := b } }

/-- Driving another line commutes with a change of BLANK: no edge of it reads BLANK. -/
theorem State.pin_withBlank {x : Line} (hx : x ≠ .blank) (s : State) (b v : Bool) :
    (s.withBlank b).pin x v = (s.pin x v).withBlank b := by
  have hget : (s.withBlank b).lines.get x = s.lines.get x := by
    cases x
    case blank => exact absurd rfl hx
    all_goals rfl
  by_cases hsame : s.lines.get x = v
  · rw [State.pin_same hsame, State.pin_same (hget.trans hsame)]
  · rw [State.pin_change hsame, State.pin_change (hget ▸ hsame)]
    cases x
    case blank => exact absurd rfl hx
    all_goals cases v <;> rfl

theorem State.shiftBit_withBlank (s : State) (b v : Bool) : (s.withBlank b).shiftBit v = (s.shiftBit v).withBlank b := by
  simp only [State.shiftBit, ne_eq, reduceCtorEq, not_false_eq_true, State.pin_withBlank]

theorem State.latchPulse_withBlank (s : State) (b : Bool) : (s.withBlank b).latchPulse = s.latchPulse.withBlank b := by
  simp only [State.latchPulse, ne_eq, reduceCtorEq, not_false_eq_true, State.pin_withBlank]

theorem State.foldl_shiftBit_withBlank (stream : List Bool) (s : State) (b : Bool) :
    stream.foldl State.shiftBit (s.withBlank b) = (stream.foldl State.shiftBit s).withBlank b := by
  induction stream generalizing s with
  | nil => rfl
  | cons v rest ih => rw [List.foldl_cons, State.shiftBit_withBlank, ih, List.foldl_cons]

theorem State.shiftFrame_withBlank (s : State) (b : Bool) : (s.withBlank b).shiftFrame = s.shiftFrame.withBlank b := by
  have hframe : (s.withBlank b).frameStream = s.frameStream := State.frameStream_congr rfl fun _ _ => rfl
  rw [State.shiftFrame_stream, State.shiftFrame_stream, hframe, State.foldl_shiftBit_withBlank]

theorem State.sendFrame_withBlank (s : State) (now : Time) (b : Bool) :
    (s.withBlank b).sendFrame now = (s.sendFrame now).withBlank b := by
  rw [State.sendFrame, State.shiftFrame_withBlank, State.latchPulse_withBlank]
  rfl

/-- The throttle does not read BLANK, and neither does the frame. -/
theorem effect_flush_withBlank (s : State) (now : Time) (b : Bool) :
    effect (.flush now) (s.withBlank b) = (effect (.flush now) s).withBlank b := by
  have hdue : (s.withBlank b).flushDue now = s.flushDue now := rfl
  simp only [effect, hdue]
  split
  · rw [State.sendFrame_withBlank]
    rfl
  · rfl

/-- Settles O45: a FLUSH in time completes, and its effect commutes with a change of BLANK. -/
theorem flushIsIndependentOfBlanking : Obligations.FlushIsIndependentOfBlanking := fun s now b ht =>
  ⟨_, exec_flush_ok ht, (exec_flush_ok (s := s.withBlank b) ht).trans
    (congrArg Host.Outcome.next (effect_flush_withBlank (s.seen (some now)) now b))⟩

end Sys2Proof.Machine
end

section
/-! The statements of 42_serial_output_stage: the frame in the chain, which commands move it, and the pulses on the lines. -/

namespace Sys2Proof.Machine

variable {s t : State} {now : Time} {i : Instr}

/-! ### The frame in the chain (R176, R178) -/

/-- INIT, and a due FLUSH from low CLK and LAT, leave the frame in both registers of the chain. -/
theorem exec_frame_chain (ht : s.timeSeen ≤ now) (hc : s.lines.clk = false) (hl : s.lines.lat = false)
    (hframe : i = .init now ∨ (i = .flush now ∧ s.lastUpdateTime.toNat + s.cfg.minUpdateInterval ≤ now.toNat)) :
    ∃ t, exec i s = .next t ∧ t.cfg = s.cfg ∧ t.shreg = streamVal s.frameStream ∧ t.latched = streamVal s.frameStream := by
  obtain rfl | ⟨rfl, hdue⟩ := hframe
  · exact ⟨_, exec_init_eq ht, rfl, rfl, rfl⟩
  · exact ⟨_, exec_flush_due_eq ht hc hl hdue, rfl, rfl, rfl⟩

/-- Settles O40: a chain that holds the frame's bits shows every LED its buffer entry, through the blank gate when it is open. -/
theorem latchedColoursAreTheBuffers : Obligations.LatchedColoursAreTheBuffers := by
  intro s now i hinv ht hframe
  obtain ⟨t, hexec, hcfg, hshreg, hlatched⟩ := exec_frame_chain ht hinv.clkLow hinv.latLow hframe
  have hbuffers : ∀ p, p < s.cfg.nLed → t.latchedColor p = ⟨s.bufRead .r p, s.bufRead .g p, s.bufRead .b p⟩ :=
    State.latchedColor_of_frame (by simp only [State.chainBits, hcfg]) fun j hj => hlatched ▸ s.frameVal_testBit j hj
  exact ⟨t, hexec, State.holdsFrame_of_eq hshreg hlatched, fun p hp =>
    ⟨hbuffers p hp, fun hon => (State.ledOut_of_not_blanked hon p).trans (hbuffers p hp)⟩⟩

/-! ### What the chain held before (R178) -/

/-- The state with other contents in the chain. -/
def State.withChain (s : State) (shreg latched : Nat) : State := { s with shreg := shreg, latched := latched }

theorem State.withChain_frameStream (s : State) (sh la : Nat) : (s.withChain sh la).frameStream = s.frameStream :=
  State.frameStream_congr rfl fun _ _ => rfl

theorem State.withChain_configureAndBlank_pinTrace (s : State) (sh la : Nat) :
    (s.withChain sh la).configureAndBlank.pinTrace = s.configureAndBlank.pinTrace := by
  rw [State.configureAndBlank_pinTrace, State.configureAndBlank_pinTrace]
  rfl

/-- A command earlier than before is refused whatever the chain holds (00_scope R9). -/
theorem exec_early_withChain (hw : i.wellFormed s.cfg = true) (hn : i.now? = some now) (hearly : now < s.timeSeen) (sh la : Nat) :
    exec i (s.withChain sh la) = exec i s :=
  (exec_early (s := s.withChain sh la) hw hn hearly).trans (exec_early hw hn hearly).symm

theorem exec_init_withChain (s : State) (now : Time) (sh la : Nat) :
    exec (.init now) (s.withChain sh la) = exec (.init now) s := by
  by_cases hearly : now < s.timeSeen
  · exact exec_early_withChain rfl rfl hearly sh la
  · have ht : s.timeSeen ≤ now := BitVec.not_lt.1 hearly
    rw [exec_init_eq (s := s.withChain sh la) ht, exec_init_eq ht, State.withChain_frameStream,
      State.withChain_configureAndBlank_pinTrace]
    rfl

theorem exec_flush_due_withChain (hc : s.lines.clk = false) (hl : s.lines.lat = false)
    (hdue : s.lastUpdateTime.toNat + s.cfg.minUpdateInterval ≤ now.toNat) (sh la : Nat) :
    exec (.flush now) (s.withChain sh la) = exec (.flush now) s := by
  by_cases hearly : now < s.timeSeen
  · exact exec_early_withChain rfl rfl hearly sh la
  · have ht : s.timeSeen ≤ now := BitVec.not_lt.1 hearly
    rw [exec_flush_due_eq (s := s.withChain sh la) ht hc hl hdue, exec_flush_due_eq ht hc hl hdue,
      State.withChain_frameStream]
    rfl

/-- Settles O41: too early, the command is refused whatever the chain holds; in time, both registers are overwritten. -/
theorem frameForgetsTheOldChain : Obligations.FrameForgetsTheOldChain :=
  ⟨exec_init_withChain, fun _ _ sh la hc hl hdue => exec_flush_due_withChain hc hl hdue sh la⟩

/-! ### Which commands move the chain (R172, R174, R179) -/

/-- An accepted command other than INIT and a due FLUSH leaves the chain. -/
theorem effect_chain (s : State) (hflush : ∀ now, i = .flush now → s.flushDue now = false) (hinit : ∀ now, i ≠ .init now) :
    (effect i s).shreg = s.shreg ∧ (effect i s).latched = s.latched := by
  cases i with
  | flush now =>
    rw [effect, if_neg (by simp [hflush now rfl])]
    exact ⟨rfl, rfl⟩
  | init now => exact absurd rfl (hinit now)
  | blank => exact State.pin_quiet (.inr (.inr rfl))
  | unblank => exact State.pin_quiet (.inl rfl)
  | _ =>
    obtain ⟨-, -, hshreg, hlatched⟩ := effect_pins s (by simp) hinit (by simp) (by simp)
    exact ⟨hshreg, hlatched⟩

/-- A command other than INIT and a due FLUSH leaves the chain, error cases included. -/
theorem exec_chain (hexec : exec i s = .next t)
    (hflush : ∀ now, i = .flush now → now.toNat < s.lastUpdateTime.toNat + s.cfg.minUpdateInterval)
    (hinit : ∀ now, i ≠ .init now) : t.shreg = s.shreg ∧ t.latched = s.latched := by
  obtain ⟨-, rfl⟩ | ⟨-, -, rfl⟩ := exec_next_cases hexec
  · exact ⟨rfl, rfl⟩
  · refine effect_chain (s.seen i.now?) (fun now hi => ?_) hinit
    exact Bool.eq_false_iff.2 (mt (flushDue_seen_iff s now _).1 (Nat.not_le.2 (hflush now hi)))

theorem step_chain (hstep : step s = .next t)
    (hflush : ∀ now rest w, s.inbox = .command w :: rest → decode w = .ok (.flush now) →
      now.toNat < s.lastUpdateTime.toNat + s.cfg.minUpdateInterval)
    (hinit : ∀ now rest w, s.inbox = .command w :: rest → decode w ≠ .ok (.init now)) :
    t.shreg = s.shreg ∧ t.latched = s.latched := by
  obtain ⟨-, rfl⟩ | ⟨rest, -, rfl⟩ | ⟨w, rest, e, -, -, rfl⟩ | ⟨w, rest, i, hinbox, hdecode, hexec⟩ := step_cases hstep
  · exact ⟨rfl, rfl⟩
  · exact ⟨rfl, rfl⟩
  · exact ⟨rfl, rfl⟩
  · refine exec_chain (s := { s with inbox := rest }) hexec (fun now hi => ?_) fun now hi => ?_
    · exact hflush now rest w hinbox (hi ▸ hdecode)
    · exact hinit now rest w hinbox (hi ▸ hdecode)

theorem State.latchedColor_congr (hcfg : t.cfg = s.cfg) (hlatched : t.latched = s.latched) (p : Nat) :
    t.latchedColor p = s.latchedColor p := by
  simp only [State.latchedColor, State.chainBits, hcfg, hlatched]

/-- Settles O42: such a step leaves both registers, and the configuration and the latch decide the latched colours. -/
theorem onlyFramesMoveTheChain : Obligations.OnlyFramesMoveTheChain := by
  intro s t hstep hflush hinit
  obtain ⟨hshreg, hlatched⟩ := step_chain hstep hflush hinit
  exact ⟨hshreg, hlatched, State.latchedColor_congr (configurationIsConstant s t hstep) hlatched⟩

/-- Settles O44: out of range such a command only raises; in range its effect drives no line. -/
theorem otherCommandsAreSilentOnThePins : Obligations.OtherCommandsAreSilentOnThePins := by
  intro i s t hexec hflush hinit hblank hunblank
  obtain ⟨-, rfl⟩ | ⟨-, -, rfl⟩ := exec_next_cases hexec
  · obtain ⟨-, -, hpins⟩ := s.raise_sameDriver .outOfRange
    exact hpins
  · exact effect_pins (s.seen i.now?) hflush hinit hblank hunblank

/-! ### The pulses of a frame (R171, R173, R179) -/

theorem eventCount_clk_frame (s : State) (data v : Bool) :
    eventCount .clk v (bitEvents data s.frameStream) = 36 * s.cfg.nLed :=
  (bitEvents_count_clk data v s.frameStream).trans s.frameStream_length

theorem eventCount_data_frame_le (s : State) (data : Bool) :
    eventCount .data true (bitEvents data s.frameStream) + eventCount .data false (bitEvents data s.frameStream) ≤
      36 * s.cfg.nLed :=
  (bitEvents_count_data data s.frameStream).trans_eq s.frameStream_length

/-- Settles O43: the frame's events are those of one `SHIFT_BIT` for each of its `36 * N_LED` bits. -/
theorem pulseCountsOfAFrame : Obligations.PulseCountsOfAFrame := by
  intro s now ht hc hl
  refine ⟨fun hdue => ?_, fun hearly => ?_, ?_⟩
  · exact ⟨_, bitEvents s.lines.data s.frameStream, exec_flush_due_eq ht hc hl hdue, rfl,
      eventCount_clk_frame s _ _, eventCount_clk_frame s _ _, eventCount_data_frame_le s _, bitEvents_lines _ _⟩
  · exact ⟨_, exec_flush_dropped_eq ht hearly, rfl⟩
  · refine ⟨_, bitEvents false s.frameStream, exec_init_eq ht, ?_,
      eventCount_clk_frame s _ _, eventCount_clk_frame s _ _, eventCount_data_frame_le s _, bitEvents_lines _ _⟩
    simp only [State.configureAndBlank_trace hc hl, List.append_assoc]

end Sys2Proof.Machine
end

section
/-! The statements of 48_host_sequencer: STOP, CHANGE_PATTERN and CHASER, as the command words they present to the block. -/

namespace Sys2Proof.Machine

variable {s t u : State} {h h' : HostSystem} {now : Time}

/-! ### A command word presented to the block (48_host_sequencer, head) -/

/-- A command presented runs on the block as it stands, and leaves the sequencer as it was. -/
theorem HostSystem.issue_of_exec {i : Instr} (hexec : exec i h.block = .next t) : h.issue i = .next { h with block := t } := by
  have hstep : step (h.block.present (encode i)) = .next t :=
    (step_command rfl).trans ((runWord_ok _ (decodeInvertsEncode i)).trans hexec)
  rw [HostSystem.issue, hstep, andThen_next]

/-- Settles O48: STOP presents one WRITE_ALL of black, and what that changes is O34's. -/
theorem stopWritesBlackAndLeavesThePool : Obligations.StopWritesBlackAndLeavesThePool := by
  intro h hstop now
  obtain ⟨t, hexec, hwritten, -, hfaders, hpins, -⟩ := writeAllStoresOneColourEverywhere.2 h.block black
  refine ⟨{ h with block := t }, ?_, rfl, hfaders, hpins, fun ch p hp => (hwritten ch p hp).trans ?_⟩
  · rw [HostSystem.patternStep, hstop]
    exact HostSystem.issue_of_exec hexec
  · cases ch <;> rfl

/-! ### A loop that serves every bank once (R194, R197) -/

theorem State.SameDriver.trans (hst : s.SameDriver t) (htu : t.SameDriver u) : s.SameDriver u := by
  obtain ⟨hbuffers, hupdate, hlines, htrace, hshreg, hlatched⟩ := hst
  obtain ⟨hbuffers', hupdate', hlines', htrace', hshreg', hlatched'⟩ := htu
  exact ⟨fun ch p => (hbuffers' ch p).trans (hbuffers ch p), hupdate'.trans hupdate, hlines'.trans hlines,
    htrace'.trans htrace, hshreg'.trans hshreg, hlatched'.trans hlatched⟩

/-- One command's work: bank `e` alone changed and is as `served` asks, the response is 0x00, no time after `now` was taken. -/
structure State.ServesBank (s t : State) (e : Nat) (served : Fader → Prop) (now : Time) : Prop where
  bank : served (t.fader e)
  only : s.OnlyBank t e
  answered : t.responses = 0x00 :: s.responses
  time : t.timeSeen ≤ now

/-- Between two commands of a loop over `[0, P)` that serves bank `bank i` at index `i`: from `h` the loop has come to `h'`, and the
indices `todo` are still to come. -/
structure HostSystem.ServedBut (h h' : HostSystem) (todo : List Nat) (bank : Nat → Nat) (served : Nat → Fader → Prop)
    (now : Time) : Prop where
  seq : h'.seq = h.seq
  cfg : h'.block.cfg = h.block.cfg
  driver : h.block.SameDriver h'.block
  time : h'.block.timeSeen ≤ now
  responses : List.replicate todo.length 0x00 ++ h'.block.responses = List.replicate h.block.cfg.p 0x00 ++ h.block.responses
  banks : ∀ i, i < h.block.cfg.p → i ∉ todo → served i (h'.block.fader (bank i))

section
variable {bank : Nat → Nat} {served : Nat → Fader → Prop}

theorem HostSystem.servedBut_start (htime : h.block.timeSeen ≤ now) :
    h.ServedBut h (List.range h.block.cfg.p) bank served now where
  seq := rfl
  cfg := rfl
  driver := ⟨fun _ _ => rfl, rfl, rfl, rfl, rfl, rfl⟩
  time := htime
  responses := by rw [List.length_range]
  banks i hi hnot := absurd (List.mem_range.2 hi) hnot

/-- Serving the next bank: a bank served before is another one, since `bank` repeats none. -/
theorem HostSystem.ServedBut.serve {i : Nat} {todo : List Nat} (hloop : h.ServedBut h' (i :: todo) bank served now)
    (hinj : Set.InjOn bank (Set.Iio h.block.cfg.p)) (hi : i < h.block.cfg.p)
    (hserve : h'.block.ServesBank t (bank i) (served i) now) :
    h.ServedBut { h' with block := t } todo bank served now := by
  obtain ⟨hothers, hdriver, hcfg, -⟩ := hserve.only
  refine ⟨hloop.seq, hcfg.trans hloop.cfg, hloop.driver.trans hdriver, hserve.time, ?_, fun j hj hnot => ?_⟩
  · rw [← hloop.responses, hserve.answered, List.length_cons, List.replicate_succ', List.append_assoc, List.singleton_append]
  · by_cases hji : j = i
    · exact hji ▸ hserve.bank
    · rw [hothers _ fun hbank => hji (hinj hj hi hbank)]
      exact hloop.banks j hj (by simp [hji, hnot])

/-- A loop over `[0, P)` whose body serves another bank at each index completes, with every bank served once. -/
theorem forEach_serves_every_bank {f : Nat → HostSystem → SeqOutcome} (hinj : Set.InjOn bank (Set.Iio h.block.cfg.p))
    (htime : h.block.timeSeen ≤ now)
    (hbody : ∀ i h', i < h.block.cfg.p → h'.seq = h.seq → h'.block.cfg = h.block.cfg → h'.block.timeSeen ≤ now →
      ∃ t, f i h' = .next { h' with block := t } ∧ h'.block.ServesBank t (bank i) (served i) now) :
    ∃ h', forEach (List.range h.block.cfg.p) f h = .next h' ∧ h.ServedBut h' [] bank served now := by
  have hloop : ∀ todo h', (∀ i ∈ todo, i < h.block.cfg.p) → h.ServedBut h' todo bank served now →
      ∃ h'', forEach todo f h' = .next h'' ∧ h.ServedBut h'' [] bank served now := by
    intro todo
    induction todo with
    | nil => exact fun h' _ hserved => ⟨h', rfl, hserved⟩
    | cons i todo ih =>
      intro h' hrange hserved
      have hi := hrange i List.mem_cons_self
      obtain ⟨t, hf, hserve⟩ := hbody i h' hi hserved.seq hserved.cfg hserved.time
      rw [forEach, hf, andThen_next]
      exact ih _ (fun j hj => hrange j (List.mem_cons_of_mem i hj)) (hserved.serve hinj hi hserve)
  exact hloop _ h (fun _ => List.mem_range.1) (HostSystem.servedBut_start htime)

end

/-! ### CHANGE_PATTERN (R194) -/

/-- FE_CLEAR of one engine, presented by the sequencer. -/
theorem HostSystem.issue_feClear_serves {e : Nat} (he : e < h.block.cfg.p) (htime : h.block.timeSeen ≤ now) :
    ∃ t, h.issue (.feClear (selOf e)) = .next { h with block := t } ∧ h.block.ServesBank t e (· = Fader.reset) now := by
  have hsel := selOf_toNat he
  obtain ⟨t, hexec, hbank, honly, hanswer, hseen⟩ := exec_feClear_spec (hsel.symm ▸ he)
  rw [hsel] at hbank honly
  exact ⟨t, HostSystem.issue_of_exec hexec, hbank, honly, hanswer, hseen.symm ▸ htime⟩

theorem padColors_length (n : Nat) (cs : List Color) : (padColors n cs).length = n := by
  simp [padColors]

/-- The colours CHANGE_PATTERN stores: those given, up to the count, then black (R194). -/
theorem Sequencer.colorAt_reconfigure (q : Sequencer) (pat : Pattern) (fade hold : Dur) (cs : Option (List Color)) (k : Nat) :
    (q.reconfigure pat fade hold cs).colorAt k =
      if k < (q.reconfigure pat fade hold cs).colorCount then (cs.getD []).getD k black else black := by
  refine (padColors_getD _ _ k).trans ?_
  cases cs with
  | none => rfl
  | some l =>
    change _ = if k < min l.length q.params.maxColors then l.getD k black else black
    by_cases hk : k < l.length
    · simp only [lt_min_iff, hk, true_and]
      rfl
    · have hblack : l.getD k black = black := List.getD_eq_default _ _ (Nat.le_of_not_lt hk)
      simp only [Option.getD_some, hblack, ite_self]

/-- Settles O49: one FE_CLEAR for each bank, then the sequencer's own fields; an explicitly empty list is refused before that. -/
theorem changePatternResetsTheEngine : Obligations.ChangePatternResetsTheEngine := by
  refine fun h pat fade hold => ⟨fun cs hcs => ?_, if_pos rfl⟩
  obtain ⟨h', hloop, hserved⟩ := forEach_serves_every_bank (h := h) (bank := id) (served := fun _ f => f = Fader.reset)
    (f := fun e h => h.issue (.feClear (selOf e))) (Set.injOn_id _) (BitVec.le_refl _)
    fun e h' he _ hcfg => HostSystem.issue_feClear_serves (hcfg ▸ he)
  have hchange : h.changePattern pat fade hold cs = .next (h'.update fun q => q.reconfigure pat fade hold cs) := by
    rw [HostSystem.changePattern, if_neg hcs, hloop, andThen_next]
  rw [← hserved.seq]
  exact ⟨_, hchange, fun e he => hserved.banks e he (by simp), hserved.driver, rfl, rfl, rfl, rfl, rfl, rfl, rfl,
    padColors_length _ _, Sequencer.colorAt_reconfigure _ _ _ _ _⟩

/-! ### CHASER's targets (R197, R209) -/

/-- With fewer colours than engines, index `i` takes the `i`-th colour if it is at most the count, else black. -/
theorem Sequencer.chaserAssign_padded {q : Sequencer} {p : Nat} (hfew : q.colorCount < p) (position i : Nat) :
    q.chaserAssign p position i = (cursorMinus position i p, if i ≤ q.colorCount then q.colorAt i else black) := by
  rw [Sequencer.chaserAssign, if_neg hfew.ne, if_neg hfew.not_gt]

/-- Settles O51: the one index the two tests differ at is the count itself, where CHANGE_PATTERN stored black or nothing. -/
theorem chaserPaddingOffByOneIsHarmless : Obligations.ChaserPaddingOffByOneIsHarmless := by
  intro q pat fade hold cs p position k _ hfew
  rw [Sequencer.chaserAssign_padded hfew, Sequencer.colorAt_reconfigure]
  generalize (q.reconfigure pat fade hold (some cs)).colorCount = count
  by_cases hk : k < count
  · simp only [if_pos hk, if_pos hk.le, Option.getD_some]
  · simp only [if_neg hk, ite_self]

/-- The index at which CHASER serves engine `e`; the same rule gives the engine served at an index (R197). -/
def Sequencer.chaserPartner (q : Sequencer) (p position e : Nat) : Nat :=
  if p < q.colorCount then e else cursorMinus position e p

section
variable {q : Sequencer} {p position e : Nat}

theorem Sequencer.chaserAssign_fst (i : Nat) : (q.chaserAssign p position i).1 = q.chaserPartner p position i := by
  obtain hfew | heq | hmany := lt_trichotomy q.colorCount p
  · rw [chaserAssign_padded hfew, chaserPartner, if_neg hfew.not_gt]
  · rw [chaserAssign, if_pos heq, chaserPartner, if_neg heq.not_gt]
  · rw [chaserAssign, if_neg hmany.ne', if_pos hmany, chaserPartner, if_pos hmany]

theorem Sequencer.chaserPartner_lt (he : e < p) : q.chaserPartner p position e < p := by
  unfold chaserPartner
  split
  · exact he
  · exact cursorMinus_lt (Nat.zero_lt_of_lt he)

theorem Sequencer.chaserPartner_chaserPartner (he : e < p) :
    q.chaserPartner p position (q.chaserPartner p position e) = e := by
  unfold chaserPartner
  split
  · rfl
  · exact cursorMinus_cursorMinus (Nat.zero_lt_of_lt he) he

/-- Each engine is served at one index (R197: a bijection on `[0, P)`). -/
theorem Sequencer.chaserPartner_injOn : Set.InjOn (q.chaserPartner p position) (Set.Iio p) := fun i hi j hj hij => by
  rw [← chaserPartner_chaserPartner hi, hij, chaserPartner_chaserPartner hj]

/-- The colour CHASER aims engine `e` at: the one assigned at the index that serves it. -/
def Sequencer.chaserTarget (q : Sequencer) (p position e : Nat) : Color :=
  (q.chaserAssign p position (q.chaserPartner p position e)).2

/-- Engine `e`'s target with at least as many colours as engines: cases 1 and 2 of R197 agree. -/
theorem Sequencer.chaserTarget_of_enough (henough : p ≤ q.colorCount) :
    q.chaserTarget p position e = q.colorAt (cursorMinus position e q.colorCount) := by
  unfold chaserTarget
  obtain heq | hmany := henough.eq_or_lt
  · rw [chaserAssign, if_pos heq.symm, chaserPartner, if_neg heq.not_lt, heq]
  · rw [chaserAssign, if_neg hmany.ne', if_pos hmany, chaserPartner, if_pos hmany]

/-- Engine `e`'s target with fewer colours than engines: case 3 of R197. -/
theorem Sequencer.chaserTarget_of_few (hfew : q.colorCount < p) :
    q.chaserTarget p position e =
      if cursorMinus position e p ≤ q.colorCount then q.colorAt (cursorMinus position e p) else black := by
  rw [chaserTarget, chaserAssign_padded hfew, chaserPartner, if_neg hfew.not_gt]

end

theorem chaserModulus_eq_max (count p : Nat) : chaserModulus count p = max count p := by
  unfold chaserModulus
  split <;> omega

/-! ### CHASER init (R197) -/

/-- START_FADE of one engine, presented by the sequencer, in time and with an end time that fits. -/
theorem HostSystem.startEngine_serves {e : Nat} (he : e < h.block.cfg.p) (htime : h.block.timeSeen ≤ now) (c : Color)
    (hend : holdEnd h.block.cfg now h.seq.fadeDuration h.seq.holdDuration ≤ 2 ^ 32 - 1) :
    ∃ t, h.startEngine e c now = .next { h with block := t } ∧
      h.block.ServesBank t e (fun f => f.active = true ∧ f.target = c) now := by
  have hsel := selOf_toNat he
  obtain ⟨t, hexec, hbank, honly, hanswer, hseen⟩ := exec_startFade_spec (hsel.symm ▸ he) htime c hend
  rw [hsel] at hbank honly
  exact ⟨t, HostSystem.issue_of_exec hexec, hbank ▸ ⟨rfl, rfl⟩, honly, hanswer, hseen ▸ BitVec.le_refl _⟩

theorem Config.p_pos (c : Config) : 0 < c.p := by
  have hvalid := c.valid
  simp only [configOk, Bool.and_eq_true, decide_eq_true_eq] at hvalid
  omega

theorem HostSystem.anyActive_of_active {e : Nat} (he : e < h.block.cfg.p) (hactive : h.block.active e = true) :
    h.anyActive = true :=
  List.any_eq_true.2 ⟨e, List.mem_range.2 he, hactive⟩

/-- The sequencer with its cursor brought below CHASER's modulus, which may have changed since the last init. -/
def HostSystem.wrapCursor (h : HostSystem) : HostSystem :=
  h.update fun q => { q with position := q.position % chaserModulus q.colorCount h.block.cfg.p }

theorem HostSystem.wrapCursor_block (h : HostSystem) : h.wrapCursor.block = h.block := rfl

theorem HostSystem.cursorMinus_wrapCursor {m : Nat} (hm : chaserModulus h.seq.colorCount h.block.cfg.p = m) (e : Nat) :
    cursorMinus h.wrapCursor.seq.position e m = cursorMinus h.seq.position e m :=
  hm ▸ cursorMinus_mod h.seq.position e _

/-- What CHASER init does at index `i`, the cursor of `q` already below the modulus. -/
def HostSystem.startAssigned (q : Sequencer) (p : Nat) (now : Time) (i : Nat) (h : HostSystem) : SeqOutcome :=
  h.startEngine (q.chaserAssign p q.position i).1 (q.chaserAssign p q.position i).2 now

/-- With `SEQ_POST_INCREMENT` the cursor is used as it stands, then advanced. -/
theorem HostSystem.chaserInit_eq (hpost : h.seq.params.postIncrement = true) (now : Time) :
    h.chaserInit now = andThen
      (forEach (List.range h.block.cfg.p) (HostSystem.startAssigned h.wrapCursor.seq h.block.cfg.p now) h.wrapCursor)
      fun h' => .next (h'.update fun q =>
        { q with position := q.cursorNext (chaserModulus h.seq.colorCount h.block.cfg.p), isFading := h'.anyActive }) := by
  have hcursor : ∀ m, h.wrapCursor.seq.cursorUsed m = h.wrapCursor.seq.position := fun _ => if_pos hpost
  unfold HostSystem.startAssigned
  rw [← hcursor (chaserModulus h.seq.colorCount h.block.cfg.p)]
  rfl

/-- The bank that index `i` serves is active and aimed at the colour assigned at `i`. -/
def Sequencer.AimedAt (q : Sequencer) (p i : Nat) (f : Fader) : Prop :=
  f.active = true ∧ f.target = (q.chaserAssign p q.position i).2

/-- CHASER init's loop completes: one START_FADE for each engine, aimed at the colour of its index. -/
theorem HostSystem.startAssigned_serves_every_engine (htime : h.block.timeSeen ≤ now)
    (hend : holdEnd h.block.cfg now h.seq.fadeDuration h.seq.holdDuration ≤ 2 ^ 32 - 1) :
    ∃ h', forEach (List.range h.block.cfg.p) (HostSystem.startAssigned h.seq h.block.cfg.p now) h = .next h' ∧
      h.ServedBut h' [] (h.seq.chaserPartner h.block.cfg.p h.seq.position) (h.seq.AimedAt h.block.cfg.p) now := by
  refine forEach_serves_every_bank Sequencer.chaserPartner_injOn htime fun i h' hi hseq hcfg hseen => ?_
  rw [HostSystem.startAssigned, Sequencer.chaserAssign_fst]
  refine HostSystem.startEngine_serves ?_ hseen _ ?_
  · rw [hcfg]
    exact Sequencer.chaserPartner_lt hi
  · rwa [hseq, hcfg]

/-- Every index served is every engine served: each engine is the one of some index. -/
theorem HostSystem.ServedBut.active_and_target {q : Sequencer} {e : Nat}
    (hserved : h.ServedBut h' [] (q.chaserPartner h.block.cfg.p q.position) (q.AimedAt h.block.cfg.p) now)
    (he : e < h.block.cfg.p) :
    h'.block.active e = true ∧ h'.block.target e = q.chaserTarget h.block.cfg.p q.position e := by
  have hbank := hserved.banks _ (Sequencer.chaserPartner_lt (q := q) (position := q.position) he) List.not_mem_nil
  rwa [Sequencer.chaserPartner_chaserPartner he] at hbank

/-- Settles O50: each engine is served at its one index, and there aimed at the colour of R197's case. -/
theorem chaserInitAimsEveryEngine : Obligations.ChaserInitAimsEveryEngine := by
  intro h now hpost _ htime hend
  obtain ⟨h', hloop, hserved⟩ := h.wrapCursor.startAssigned_serves_every_engine htime hend
  have hinit := h.chaserInit_eq hpost now
  rw [HostSystem.wrapCursor_block] at hloop
  rw [hloop, andThen_next] at hinit
  have hengine : ∀ e, e < h.block.cfg.p → h'.block.active e = true ∧
      h'.block.target e = h.wrapCursor.seq.chaserTarget h.block.cfg.p h.wrapCursor.seq.position e :=
    fun _ => hserved.active_and_target
  have hmodulus := chaserModulus_eq_max h.seq.colorCount h.block.cfg.p
  refine ⟨_, hinit, hserved.responses, hserved.driver, ?_, ?_, fun e he => ⟨(hengine e he).1, fun henough => ?_, ?_⟩⟩
  · exact HostSystem.anyActive_of_active (hserved.cfg ▸ Config.p_pos _) (hengine 0 (Config.p_pos _)).1
  · calc (h'.seq.position + 1) % chaserModulus h.seq.colorCount h.block.cfg.p
      _ = (h.seq.position % chaserModulus h.seq.colorCount h.block.cfg.p + 1) % chaserModulus h.seq.colorCount h.block.cfg.p := by
        rw [hserved.seq]
        rfl
      _ = (h.seq.position + 1) % max h.seq.colorCount h.block.cfg.p := by rw [Nat.mod_add_mod, hmodulus]
  · refine (hengine e he).2.trans ((Sequencer.chaserTarget_of_enough henough).trans ?_)
    exact congrArg h.seq.colorAt (HostSystem.cursorMinus_wrapCursor (hmodulus.trans (max_eq_left henough)) e)
  · rintro hfew k rfl
    refine (hengine e he).2.trans ((Sequencer.chaserTarget_of_few hfew).trans ?_)
    rw [HostSystem.cursorMinus_wrapCursor (hmodulus.trans (max_eq_right hfew.le))]
    rfl

end Sys2Proof.Machine
end

section
/-! The statements of 60_exceptions: waiting, the one outcome of every word, the sticky `ERR` bits, and commands out of range. -/

namespace Sys2Proof.Machine

variable {i : Instr} {s t : State}

/-! ### Nothing presented (R242) -/

/-- Settles O7: the step takes the first pending event, and there is none. -/
theorem blockWaitsWithNothingPresented : Obligations.BlockWaitsWithNothingPresented :=
  fun _ => step_nil

/-! ### The error register (R232, R233, R237) -/

/-- A command in range that completes has its effect, and no effect reaches `ERR`. -/
theorem exec_err_of_wellFormed (hw : i.wellFormed s.cfg = true) (hexec : exec i s = .next t) : t.err = s.err := by
  obtain ⟨hout, -⟩ | ⟨-, -, rfl⟩ := exec_next_cases hexec
  · simp [hw] at hout
  · exact (effect_rest i (s.seen i.now?)).2.1

/-- Settles O15: out of range a command raises; in range it has its effect. -/
theorem outOfRangeChangesOnlyErrAndResponse : Obligations.OutOfRangeChangesOnlyErrAndResponse :=
  ⟨fun _ _ => exec_out_eq_next, fun _ _ _ => exec_err_of_wellFormed⟩

/-- Raising an error sets its bit and keeps the others. -/
theorem State.and_raise_err (s : State) (e : Err) : s.err &&& (s.raise e).err = s.err := by
  rw [State.raise_err]
  ext k hk
  rw [BitVec.getElem_and, BitVec.getElem_or]
  exact inf_sup_self

/-- A command that completes keeps every `ERR` bit: out of range it raises, in range it leaves `ERR`. -/
theorem exec_keeps_err_bits (hexec : exec i s = .next t) : s.err &&& t.err = s.err := by
  obtain ⟨-, rfl⟩ | ⟨hw, -, -⟩ := exec_next_cases hexec
  · exact s.and_raise_err _
  · rw [exec_err_of_wellFormed hw hexec, BitVec.and_self]

/-- Settles O14, by cases on what the step did: it waited, raised IllegalCommand, or ran a command; a reset is excluded. -/
theorem errBitsAreSticky : Obligations.ErrBitsAreSticky := by
  intro s t hstep hnoreset
  obtain ⟨-, rfl⟩ | ⟨rest, hreset, -⟩ | ⟨w, rest, e, -, -, rfl⟩ | ⟨w, rest, i, -, -, hexec⟩ := step_cases hstep
  · exact BitVec.and_self
  · exact absurd hreset (hnoreset rest)
  · exact State.and_raise_err { s with inbox := rest } _
  · exact exec_keeps_err_bits (s := { s with inbox := rest }) hexec

/-! ### One outcome for every word (R231) -/

/-- A command that completes answers one response, its error's or its result's, and leaves what the host has yet to present. -/
theorem exec_answers (hexec : exec i s = .next t) : (∃ r, t.responses = r :: s.responses) ∧ t.inbox = s.inbox := by
  obtain ⟨-, rfl⟩ | ⟨-, -, rfl⟩ := exec_next_cases hexec
  · exact ⟨⟨_, s.raise_responses _⟩, s.raise_inbox _⟩
  · obtain ⟨-, -, hinbox, -, hresponse⟩ := effect_rest i (s.seen i.now?)
    exact ⟨hresponse, hinbox⟩

/-- A command in range and in time that is still outside the spec is a START_FADE whose hold end does not fit
(40_fade_engine R111). -/
theorem startFade_beyondRange_of_not_insideSpec (houtside : ¬ i.InsideSpec s)
    (hintime : ∀ now, i.now? = some now → s.timeSeen ≤ now) :
    ∃ sel now target fade hold, i = .startFade sel now target fade hold ∧ 2 ^ 32 - 1 < holdEnd s.cfg now fade hold := by
  by_contra hfits
  refine houtside fun _ => ⟨hintime, fun sel now target fade hold hi => ?_⟩
  by_contra hbeyond
  exact hfits ⟨sel, now, target, fade, hold, hi, Nat.not_le.1 hbeyond⟩

/-- What a command can do: complete, be refused for its time, or be refused for its end time. -/
theorem exec_outcomes (i : Instr) (s : State) :
    (∃ t, exec i s = .next t) ∨
    (∃ now, i.wellFormed s.cfg = true ∧ i.now? = some now ∧ now < s.timeSeen ∧ exec i s = .refused .timeWentBackwards) ∨
    (∃ sel now target fade hold, i = .startFade sel now target fade hold ∧ sel.toNat < s.cfg.p ∧ s.timeSeen ≤ now ∧
      2 ^ 32 - 1 < holdEnd s.cfg now fade hold ∧ exec i s = .refused .endTimeBeyondRange) := by
  by_cases hinside : i.InsideSpec s
  · exact .inl (exec_completes_of_insideSpec hinside)
  · right
    have hw : i.wellFormed s.cfg = true := by
      by_contra hout
      exact hinside fun h => absurd h hout
    by_cases hearly : ∃ now, i.now? = some now ∧ now < s.timeSeen
    · obtain ⟨now, hnow, hlt⟩ := hearly
      exact .inl ⟨now, hw, hnow, hlt, exec_early hw hnow hlt⟩
    · have hintime : ∀ now, i.now? = some now → s.timeSeen ≤ now := fun now hnow =>
        BitVec.not_lt.1 fun hlt => hearly ⟨now, hnow, hlt⟩
      obtain ⟨sel, now, target, fade, hold, rfl, hbeyond⟩ := startFade_beyondRange_of_not_insideSpec hinside hintime
      have hrefused := (exec_in_time hw hintime).trans (if_neg (Nat.not_le.2 hbeyond))
      exact .inr ⟨sel, now, target, fade, hold, rfl, of_decide_eq_true hw, hintime now rfl, hbeyond, hrefused⟩

/-- Settles O11: a word that decodes to nothing raises IllegalCommand; any other has one of its command's outcomes. -/
theorem everyWordHasOneOutcome : Obligations.EveryWordHasOneOutcome := by
  intro s w rest hinbox
  cases hdecode : decode w with
  | error e =>
    have hstep := (step_command hinbox).trans (runWord_error _ hdecode)
    exact .inl ⟨_, _, hstep, State.raise_responses _ _, State.raise_inbox _ _⟩
  | ok i =>
    have hstep := stepRunsTheDecodedCommand s w rest i hinbox hdecode
    rw [hstep]
    obtain ⟨t, hexec⟩ | ⟨now, hw, hnow, hlt, hexec⟩ | ⟨sel, now, target, fade, hold, rfl, hsel, htime, hbeyond, hexec⟩ :=
      exec_outcomes i { s with inbox := rest }
    · obtain ⟨⟨r, hresponse⟩, htaken⟩ := exec_answers hexec
      exact .inl ⟨t, r, hexec, hresponse, htaken⟩
    · exact .inr (.inl ⟨i, now, rfl, hw, hnow, hlt, hexec⟩)
    · exact .inr (.inr ⟨sel, now, target, fade, hold, rfl, hsel, htime, hbeyond, hexec⟩)

end Sys2Proof.Machine
end

section
/-! The statements of 70_reset_and_hazards: the reset event, and the first INIT after power-on. -/

namespace Sys2Proof.Machine

/-! ### The reset event (R250, R251) -/

/-- A reset event leaves every bank as it is after power-on. -/
theorem State.applyReset_fader (s : State) (e : Nat) : s.applyReset.fader e = (State.powerOn s.cfg 0 0).fader e := rfl

/-- A reset event leaves every buffer entry as it is after power-on. -/
theorem State.applyReset_bufRead (s : State) (ch : Channel) (p : Nat) :
    s.applyReset.bufRead ch p = (State.powerOn s.cfg 0 0).bufRead ch p := by
  cases ch <;> rfl

/-- Settles O9: banks and buffers are those of power-on, and the blank gate hides the chain, which the event does not reach. -/
theorem resetEventResetsTheBlockNotTheChain : Obligations.ResetEventResetsTheBlockNotTheChain := by
  intro s rest hinbox
  obtain ⟨hbanks, -, hbuffers, -⟩ := powerOnHoldsTheResetValues s.cfg 0 0
  exact ⟨_, step_reset hinbox, fun e => (State.applyReset_fader _ e).trans (hbanks e),
    fun ch p => (State.applyReset_bufRead _ ch p).trans (hbuffers ch p), rfl, rfl, rfl, rfl, rfl, rfl, rfl, rfl, rfl, rfl,
    State.ledOut_of_blanked rfl⟩

/-! ### Boot (R253) -/

/-- Settles O47: no `now` is before power-on, so INIT completes; the frame it latches is that of the buffers, which are black. -/
theorem bootShowsBlack : Obligations.BootShowsBlack := by
  intro c sh la now
  obtain ⟨-, -, hbuffers, -⟩ := powerOnHoldsTheResetValues c sh la
  have hintime : (State.powerOn c sh la).timeSeen ≤ now := Nat.zero_le now.toNat
  have hinit := exec_init_eq hintime
  obtain ⟨t, hexec, -, hshown⟩ := latchedColoursAreTheBuffers _ now _ (State.powerOn_inv c sh la) hintime (.inl rfl)
  obtain rfl := Host.Outcome.next.inj (hexec.symm.trans hinit)
  refine ⟨_, hinit, rfl, rfl, fun p hp => ?_⟩
  simpa only [hbuffers] using (hshown p hp).2 rfl

end Sys2Proof.Machine
end
